-- ==== Sys2Proof/Word.lean ====
section
/-! DEFINITION. The fixed widths of the unit: bytes, 64-bit values, 68-bit command and response words (R7, R8, R9, R70, R73). -/

namespace Sys2Proof

/-- A byte of a stream, unsigned, bits 7 down to 0 (R8, R9, R219). -/
abbrev Byte := BitVec 8

/-- A 64-bit pattern: the `u64` it stands for is its `toNat`, the `i64` its `toInt` (R9, R10). -/
abbrev Word := BitVec 64

/-- A command word, `OP[67:64]` and `OPERAND[63:0]` (R70). -/
abbrev CommandWord := BitVec 68

/-- A response word, `STATUS[67:64]` and `RESULT[63:0]` (R73). -/
abbrev ResponseWord := BitVec 68

end Sys2Proof
end

