-- ==== Sys2Proof/Syntax.lean ====
section
/-! DEFINITION. The instructions: one constructor per row of spec/opcode_table.json. The nine operations and the seven reserved
codes carry the 64 bits of `OPERAND` (R70, R71, R72, R75); the nine classes of first byte carry the value bits of that byte
(R61 to R65). -/

namespace Sys2Proof

/-- An instruction of the unit. An operation or a reserved code comes as a command word; a class of first byte comes from the
byte source, and DECODE and DECODES are what takes it from there (log 2). -/
inductive Instr where
  /-- SIZEOF, `OP` 0x0; the operand is a `u64` (R96). -/
  | sizeof (value : Word)
  /-- ENCODE, `OP` 0x1; the operand is a `u64` (R115). -/
  | encode (value : Word)
  /-- DECODE, `OP` 0x2; the operand is ignored, whatever it is (R72, R131). -/
  | decode (operand : Word)
  /-- MARKER, `OP` 0x3; the operand is `extra`, an unsigned number (R111, R112). -/
  | marker (extra : Word)
  /-- ZZENC, `OP` 0x4; the operand is the pattern of an `i64` (R152). -/
  | zzenc (n : Word)
  /-- ZZDEC, `OP` 0x5; the operand is a `u64` (R155). -/
  | zzdec (u : Word)
  /-- ENCODES, `OP` 0x6; the operand is the pattern of an `i64` (R166). -/
  | encodes (n : Word)
  /-- DECODES, `OP` 0x7; the operand is ignored, whatever it is (R72, R167). -/
  | decodes (operand : Word)
  /-- SIZEOFS, `OP` 0x8; the operand is the pattern of an `i64` (R168). -/
  | sizeofs (n : Word)
  /-- Reserved code 0x9 (R75). -/
  | reserved9 (operand : Word)
  /-- Reserved code 0xA (R75). -/
  | reservedA (operand : Word)
  /-- Reserved code 0xB (R75). -/
  | reservedB (operand : Word)
  /-- Reserved code 0xC (R75). -/
  | reservedC (operand : Word)
  /-- Reserved code 0xD (R75). -/
  | reservedD (operand : Word)
  /-- Reserved code 0xE (R75). -/
  | reservedE (operand : Word)
  /-- Reserved code 0xF (R75). -/
  | reservedF (operand : Word)
  /-- First byte `0vvvvvvv`: a form of one byte, `value[6:0]` (R62). -/
  | wireL1 (high : BitVec 7)
  /-- First byte `10vvvvvv`: a form of two bytes, `value[13:8]` (R63). -/
  | wireL2 (high : BitVec 6)
  /-- First byte `110vvvvv`: a form of three bytes, `value[20:16]` (R63). -/
  | wireL3 (high : BitVec 5)
  /-- First byte `1110vvvv`: a form of four bytes, `value[27:24]` (R63). -/
  | wireL4 (high : BitVec 4)
  /-- First byte `11110vvv`: a form of five bytes, `value[34:32]` (R63). -/
  | wireL5 (high : BitVec 3)
  /-- First byte `111110vv`: a form of six bytes, `value[41:40]` (R63). -/
  | wireL6 (high : BitVec 2)
  /-- First byte `1111110v`: a form of seven bytes, `value[48]` (R63). -/
  | wireL7 (high : BitVec 1)
  /-- First byte 0xFE: a form of eight bytes, no value bit in the first (R64). -/
  | wireL8
  /-- First byte 0xFF: a form of nine bytes, no value bit in the first (R65). -/
  | wireL9
  deriving DecidableEq, Repr

end Sys2Proof
end

