-- ==== Sys2Proof/Decode.lean ====
section
/-! DEFINITION. Decoding and encoding of command words (R70, R71, R75) and of first bytes (R61), and the same on bytes. The
decoder is total: every command word and every first byte has an instruction; a byte list that holds no whole word is rejected
by name. -/

namespace Sys2Proof

/-! ### Command words -/

/-- The field `OP`, bits 67 to 64 (R70). -/
def opField (w : CommandWord) : BitVec 4 := w.extractLsb' 64 4

/-- The field `OPERAND`, bits 63 to 0 (R70). -/
def operandField (w : CommandWord) : Word := w.extractLsb' 0 64

/-- A command word from its two fields (R70). -/
def commandWord (op : BitVec 4) (operand : Word) : CommandWord := op ++ operand

/-- The instruction of a command word: the operation codes of R71, and the reserved codes of R75. -/
def decodeCommand (w : CommandWord) : Instr :=
  let operand := operandField w
  match (opField w).toNat with
  | 0x0 => .sizeof operand
  | 0x1 => .encode operand
  | 0x2 => .decode operand
  | 0x3 => .marker operand
  | 0x4 => .zzenc operand
  | 0x5 => .zzdec operand
  | 0x6 => .encodes operand
  | 0x7 => .decodes operand
  | 0x8 => .sizeofs operand
  | 0x9 => .reserved9 operand
  | 0xA => .reservedA operand
  | 0xB => .reservedB operand
  | 0xC => .reservedC operand
  | 0xD => .reservedD operand
  | 0xE => .reservedE operand
  | _ => .reservedF operand

/-! ### First bytes -/

/-- The instruction of a first byte: the nine classes by mask and match, in the order of R61's table. The nine cover every byte
(R61), so the last is what the other eight leave. -/
def decodeByte0 (b : Byte) : Instr :=
  if b &&& 0x80#8 = 0x00#8 then .wireL1 (b.extractLsb' 0 7)
  else if b &&& 0xC0#8 = 0x80#8 then .wireL2 (b.extractLsb' 0 6)
  else if b &&& 0xE0#8 = 0xC0#8 then .wireL3 (b.extractLsb' 0 5)
  else if b &&& 0xF0#8 = 0xE0#8 then .wireL4 (b.extractLsb' 0 4)
  else if b &&& 0xF8#8 = 0xF0#8 then .wireL5 (b.extractLsb' 0 3)
  else if b &&& 0xFC#8 = 0xF8#8 then .wireL6 (b.extractLsb' 0 2)
  else if b &&& 0xFE#8 = 0xFC#8 then .wireL7 (b.extractLsb' 0 1)
  else if b &&& 0xFF#8 = 0xFE#8 then .wireL8
  else .wireL9

/-- One row of R61's table of classes. -/
structure WireRow where
  extra : Nat
  mask : Byte
  pattern : Byte
  deriving DecidableEq, Repr

/-- R61's table of classes. -/
def wireRows : List WireRow :=
  [⟨0, 0x80#8, 0x00#8⟩, ⟨1, 0xC0#8, 0x80#8⟩, ⟨2, 0xE0#8, 0xC0#8⟩, ⟨3, 0xF0#8, 0xE0#8⟩, ⟨4, 0xF8#8, 0xF0#8⟩,
   ⟨5, 0xFC#8, 0xF8#8⟩, ⟨6, 0xFE#8, 0xFC#8⟩, ⟨7, 0xFF#8, 0xFE#8⟩, ⟨8, 0xFF#8, 0xFF#8⟩]

/-- A first byte is of a row's class exactly when it agrees with the row under the mask (R61). -/
def WireRow.covers (r : WireRow) (b : Byte) : Bool := b &&& r.mask == r.pattern

/-! ### The encoder -/

/-- Where the unit finds a word: on the command port, or in the byte source. -/
inductive Port where
  /-- The command port: 68-bit command words (R70). -/
  | command
  /-- The byte source, where the first byte of a form stands (R60). -/
  | source
  deriving DecidableEq, Repr

/-- An encoded instruction: a command word or a first byte. -/
inductive Encoded where
  | command (w : CommandWord)
  | firstByte (b : Byte)
  deriving DecidableEq, Repr

/-- The word of an instruction, from R71's codes and R61's patterns. -/
def encode : Instr → Encoded
  | .sizeof v => .command (commandWord 0x0#4 v)
  | .encode v => .command (commandWord 0x1#4 v)
  | .decode v => .command (commandWord 0x2#4 v)
  | .marker v => .command (commandWord 0x3#4 v)
  | .zzenc v => .command (commandWord 0x4#4 v)
  | .zzdec v => .command (commandWord 0x5#4 v)
  | .encodes v => .command (commandWord 0x6#4 v)
  | .decodes v => .command (commandWord 0x7#4 v)
  | .sizeofs v => .command (commandWord 0x8#4 v)
  | .reserved9 v => .command (commandWord 0x9#4 v)
  | .reservedA v => .command (commandWord 0xA#4 v)
  | .reservedB v => .command (commandWord 0xB#4 v)
  | .reservedC v => .command (commandWord 0xC#4 v)
  | .reservedD v => .command (commandWord 0xD#4 v)
  | .reservedE v => .command (commandWord 0xE#4 v)
  | .reservedF v => .command (commandWord 0xF#4 v)
  | .wireL1 v => .firstByte (0b0#1 ++ v)
  | .wireL2 v => .firstByte (0b10#2 ++ v)
  | .wireL3 v => .firstByte (0b110#3 ++ v)
  | .wireL4 v => .firstByte (0b1110#4 ++ v)
  | .wireL5 v => .firstByte (0b11110#5 ++ v)
  | .wireL6 v => .firstByte (0b111110#6 ++ v)
  | .wireL7 v => .firstByte (0b1111110#7 ++ v)
  | .wireL8 => .firstByte 0b11111110#8
  | .wireL9 => .firstByte 0b11111111#8

/-- The instruction of an encoded instruction. -/
def decodeEncoded : Encoded → Instr
  | .command w => decodeCommand w
  | .firstByte b => decodeByte0 b

/-! ### On bytes -/

/-- Why a list of bytes is no word. -/
inductive DecodeError where
  /-- No byte is there. -/
  | noBytes
  /-- Fewer than the nine bytes of a command word are there. -/
  | truncatedCommand
  /-- A bit above bit 67 of the nine bytes is not 0. -/
  | paddingNotZero
  deriving DecidableEq, Repr

/-- The port an encoded instruction stands at. -/
def Encoded.port : Encoded → Port
  | .command _ => .command
  | .firstByte _ => .source

/-- The bytes of a command word: nine, bits 7 to 0 first, the four bits above bit 67 zero. The spec gives the word no bytes.
DESIGN CHOICE, log 3. -/
def commandBytes (w : CommandWord) : List Byte :=
  [w.extractLsb' 0 8, w.extractLsb' 8 8, w.extractLsb' 16 8, w.extractLsb' 24 8, w.extractLsb' 32 8,
   w.extractLsb' 40 8, w.extractLsb' 48 8, w.extractLsb' 56 8, 0#4 ++ w.extractLsb' 64 4]

/-- The bytes of an encoded instruction. -/
def Encoded.bytes : Encoded → List Byte
  | .command w => commandBytes w
  | .firstByte b => [b]

/-- The instruction at the head of a list of bytes, and the bytes after it. -/
def decode : Port → List Byte → Except DecodeError (Instr × List Byte)
  | .command, b0 :: b1 :: b2 :: b3 :: b4 :: b5 :: b6 :: b7 :: b8 :: rest =>
    if b8.extractLsb' 4 4 = 0#4 then
      .ok (decodeCommand (b8.extractLsb' 0 4 ++ (b7 ++ b6 ++ b5 ++ b4 ++ b3 ++ b2 ++ b1 ++ b0)), rest)
    else .error .paddingNotZero
  | .command, [] => .error .noBytes
  | .command, _ => .error .truncatedCommand
  | .source, b :: rest => .ok (decodeByte0 b, rest)
  | .source, [] => .error .noBytes

/-- The first `k` bytes of a number, least significant first. -/
def littleEndianBytes (k : Nat) (w : Nat) : List Byte :=
  (List.range k).map fun i => BitVec.ofNat 8 (w >>> (8 * i))

/-- The instruction the decoder reads from a row's word. An 8-bit row is a first byte; every other row is a command word, whose
nine bytes are laid out as `commandBytes` does (log 3). A number that does not fit the port's bytes is no word. -/
def decodeTableWord (nbits w : Nat) : Option Instr :=
  let answer :=
    if nbits = 8 then
      if w < 2 ^ 8 then decode .source (littleEndianBytes 1 w) else .error .paddingNotZero
    else
      if w < 2 ^ 72 then decode .command (littleEndianBytes 9 w) else .error .paddingNotZero
  match answer with
  | .ok (i, _) => some i
  | .error _ => none

end Sys2Proof
end

