-- ==== Sys2Proof/Machine/Operands.lean ====
section
/-! DEFINITION. The unit's functions, all pure: signed patterns (R10), bit counting (R90 to R92), capacity and size (R93, R94),
the marker and the encoder (R110, R113), the decoder on bytes (R130), and the ZigZag maps (R151, R154). The spec's `sizeOf`,
`encode` and `decodeBytes` are `vintSizeOf`, `vintEncode` and `vintDecode` here. -/

namespace Sys2Proof.Machine

/-! ### Signed values as patterns (R10, R72) -/

/-- `bits64(n)`, the two's-complement pattern of an `i64` (R10). -/
def bits64 (n : Int) : Word := BitVec.ofInt 64 n

/-- `signed64(p)`, the `i64` of a pattern (R10). -/
def signed64 (p : Word) : Int :=
  if p.toNat < 2 ^ 63 then (p.toNat : Int) else (p.toNat : Int) - 2 ^ 64

/-! ### Bit counting -/

/-- The leading zero bits of `x` among its low `k` bits. -/
def leadingZeros (x : Word) : Nat → Nat
  | 0 => 0
  | k + 1 => if x.getLsbD k then 0 else leadingZeros x k + 1

/-- `clz64(x)`, the number of leading zero bits of a `u64`; 64 for 0 (R90). -/
def clz64 (x : Word) : Nat := leadingZeros x 64

/-- `bitlen64(x) = 64 - clz64(x OR 1)` (R91, R221). -/
def bitlen64 (x : Word) : Nat := 64 - clz64 (x ||| 1#64)

/-- `clo8(b)`, the number of leading 1-bits of a byte, by R92's table. -/
def clo8 (b : Byte) : Nat :=
  if b < 0x80#8 then 0
  else if b < 0xC0#8 then 1
  else if b < 0xE0#8 then 2
  else if b < 0xF0#8 then 3
  else if b < 0xF8#8 then 4
  else if b < 0xFC#8 then 5
  else if b < 0xFE#8 then 6
  else if b < 0xFF#8 then 7
  else 8

/-! ### Capacity and size -/

/-- `CAP(n)`, the value bits of an `n`-byte form: `7n` for 1 to 8 bytes, 64 for nine (R93, C2). -/
def cap (n : Nat) : Nat := if n = 9 then 64 else 7 * n

/-- `sizeOf(v)`, the length of the shortest form that holds `v`, by R94's ranges. -/
def vintSizeOf (v : Word) : Nat :=
  if v.toNat < 2 ^ 7 then 1
  else if v.toNat < 2 ^ 14 then 2
  else if v.toNat < 2 ^ 21 then 3
  else if v.toNat < 2 ^ 28 then 4
  else if v.toNat < 2 ^ 35 then 5
  else if v.toNat < 2 ^ 42 then 6
  else if v.toNat < 2 ^ 49 then 7
  else if v.toNat < 2 ^ 56 then 8
  else 9

/-! ### The marker and the encoder -/

/-- The mask `0xFF >>> e` of the value bits of a first byte; 0 for `e = 8` (R11, R66, R218). -/
def valueMask (e : Nat) : Byte := 0xFF#8 >>> e

/-- `marker(e) = NOT_8(0xFF >>> e)` (R110). -/
def marker (e : Nat) : Byte := ~~~ valueMask e

/-- Byte `i` of a value, counted from the least significant: `v[8i+7 : 8i]` (R8). -/
def byteOf (v : Word) (i : Nat) : Byte := v.extractLsb' (8 * i) 8

/-- `b[1]` to `b[e]` of a form: the low `e` bytes of `v`, the most significant of them first (R45, R113). -/
def extraBytes (v : Word) : Nat → List Byte
  | 0 => []
  | e + 1 => byteOf v e :: extraBytes v e

/-- `encode(v)`, the canonical form of a `u64` (R113). -/
def vintEncode (v : Word) : List Byte :=
  let e := vintSizeOf v - 1
  if e = 0 then [byteOf v 0]
  else
    let top := if e ≤ 7 then byteOf v e else 0#8
    (marker e ||| top) :: extraBytes v e

/-! ### The decoder -/

/-- The value bits of a first byte that has `e` leading 1-bits, zero-extended (R130, R219). -/
def firstByteValue (b : Byte) (e : Nat) : Word := (b &&& valueMask e).setWidth 64

/-- `acc = (acc << 8) | byte` over the extra bytes, each zero-extended (R130, R132). -/
def foldBytes (acc : Word) (t : List Byte) : Word :=
  t.foldl (fun a b => (a <<< 8) ||| b.setWidth 64) acc

/-- `decodeBytes(s)`: the value and the number of bytes used, or `none` for Truncated (R130). -/
def vintDecode : List Byte → Option (Word × Nat)
  | [] => none
  | b :: rest =>
    let e := clo8 b
    if rest.length < e then none
    else some (foldBytes (firstByteValue b e) (rest.take e), 1 + e)

/-! ### ZigZag -/

/-- `zigzagEncode`, on the pattern of the `i64`: `(p << 1) XOR (p >>s 63)` (R151, R220). -/
def zigzagEncode (p : Word) : Word := (p <<< 1) ^^^ p.sshiftRight 63

/-- `zigzagDecode`, giving the pattern of the `i64`: `(u >>> 1) XOR NEG_64(u AND 1)` (R154, R220). -/
def zigzagDecode (u : Word) : Word := (u >>> 1) ^^^ (-(u &&& 1#64))

end Sys2Proof.Machine
end

