-- ==== Sys2Proof/Config.lean ====
section
/-! DEFINITION. The parameters of the unit (R7): the fixed ones as numbers, the open type IOINFO as an argument, the other open
ones as free values with no body. Each free value is indexed by the counter `draws` of State, which every step advances (log 16). -/

namespace Sys2Proof

/-- A collaborator's name for the payload of one of its I/O faults. The unit passes the name on and never looks inside it. It is a
name and not the payload: two names may stand for one payload. DESIGN CHOICE, log 7. -/
structure IoToken where
  index : Nat
  deriving DecidableEq, Repr

/-- The open parameter IOINFO (R7, R182, D25): any type, and the payload in it that each name stands for. It is an argument wherever
a payload is spoken of, and nothing is assumed of it. Log 7. -/
structure IoInfo where
  type : Type
  named : IoToken → type

namespace Config

/-- MIN_LEN, the shortest encoded form (R7). -/
def minLen : Nat := 1

/-- MAX_LEN, the longest encoded form (R7). -/
def maxLen : Nat := 9

/-- MAX_EXTRA, the largest count of extra bytes (R7). -/
def maxExtra : Nat := 8

/-- SB_BYTES, the size of the scratch buffer (R7, R24). -/
def scratchBytes : Nat := 9

/-- SRC_AFTER_FAIL: how many of its remaining bytes the source loses in a failed read (R42, R189, D10). More than all of them
means all of them. Free, log 5; the same draw serves a read that is never answered, log 12. -/
opaque srcAfterFail : Nat → Nat

/-- SNK_AFTER_FAIL: how long a part of the offered bytes, from the first on, the sink keeps in a failed write (R43, R118, R189,
D11). More than all of them means all of them. Free, log 6; the same draw serves a write that is never answered, log 12. -/
opaque snkAfterFail : Nat → Nat

/-- `RESULT` of a failed operation, when the response is carried as a word (R73, U8). Free, log 8. -/
opaque resultOfFailure : Nat → Word

/-- SB_RESET: what a reset event leaves in byte `i` of the scratch buffer (R32, D23). The first argument is the draw. Free,
log 9. -/
opaque scratchAfterReset : Nat → Nat → Byte

/-- What `B0` holds outside a decode operation (R25, R32, U9). Free, log 10. -/
opaque idleB0 : Nat → Byte

/-- What `EXTRA` holds outside a decode operation (R25, R32, U9). Free, log 10. -/
opaque idleExtra : Nat → BitVec 4

/-- What `ACC` holds outside a decode operation (R25, R32, U9). Free, log 10. -/
opaque idleAcc : Nat → Word

/-- What `N` holds outside an encode operation (R26, R32, U9). Free, log 10. -/
opaque idleN : Nat → BitVec 4

end Config

end Sys2Proof
end

