-- ==== Sys2Proof/Machine/State.lean ====
section
/-! DEFINITION. The state of one unit with its two streams and its host, the reasons a step can stop, and the state after reset
(10_state.md, 20_memory.md R40, R42, R43). Plain data. -/

namespace Sys2Proof.Machine

/-! ### Conditions and responses -/

/-- The four conditions a failed operation reports (R180). They are ordinary results, not faults of the machine (R197). -/
inductive Condition where
  /-- A read answered `End` (R181). -/
  | unexpectedEndOfStream
  /-- A stream request answered `IoFault(info)`; the payload, by its name, is passed on unchanged (R182; log 7). -/
  | ioFailure (token : IoToken)
  /-- The operation code selects no operation (R183). -/
  | illegalOperation
  /-- MARKER's operand is above 8 (R184). -/
  | operandRange
  deriving DecidableEq, Repr

/-- A response, `Ok(result)` or `Fail(condition, info)`; the info of an I/O fault stands in its condition (R73). -/
inductive Response where
  | ok (result : Word)
  | fail (condition : Condition)
  deriving DecidableEq, Repr

/-! ### The streams -/

/-- What a collaborator does with one request: the free part of its answer (R42, R43). -/
inductive Answer where
  /-- It serves the request if it can: a read is `Ok` when enough bytes are left, `End` when fewer are left and the source has
  ended; a write is `Ok`. -/
  | comply
  /-- It answers `IoFault(info)`, which is allowed at any request; the token names the payload (log 7). -/
  | ioFault (token : IoToken)
  /-- It never answers (R191). -/
  | silent
  deriving DecidableEq, Repr

/-- The byte source `SRC` (R28, R40, R42). -/
structure Source where
  /-- The bytes not yet given out, first byte first. -/
  rem : List Byte
  /-- No byte will ever come after `rem`. -/
  ended : Bool
  /-- How the collaborator treats the next requests, one entry each; past its end it complies (log 4). -/
  plan : List Answer
  deriving DecidableEq, Repr

/-- The byte sink `SNK` (R28, R40, R43). -/
structure Sink where
  /-- The bytes taken so far, first byte first. -/
  out : List Byte
  /-- How the collaborator treats the next requests, one entry each; past its end it complies (log 4). -/
  plan : List Answer
  deriving DecidableEq, Repr

/-- A stream request, as the collaborator sees it (R42, R43, R48). -/
inductive StreamRequest where
  /-- `MemRead(SRC, k)`. -/
  | read (k : Nat)
  /-- `MemWrite(SNK, k, bytes)`, where `k` is the number of bytes. -/
  | write (bytes : List Byte)
  deriving DecidableEq, Repr

/-! ### The unit -/

/-- The operations that make stream requests, the only ones that can be in progress for want of an answer (R191). -/
inductive StreamOp where
  | encode
  | decode
  | encodes
  | decodes
  deriving DecidableEq, Repr

/-- What the host does to the unit (log 1, log 20). -/
inductive HostEvent where
  /-- It presents a command word (R70). -/
  | command (w : CommandWord)
  /-- It resets the unit (R210). -/
  | reset
  /-- It makes a stream the unit's source (R55, R196, R212). -/
  | attachSource (src : Source)
  /-- It makes a stream the unit's sink (R196, R212). -/
  | attachSink (snk : Sink)
  deriving DecidableEq, Repr

/-- The state of the unit, of the streams attached to it, and of what the host will do next. -/
structure State where
  /-- The host's coming actions, oldest first (R21; the model's own field, log 1). -/
  events : List HostEvent
  /-- The response port: what the last step answered. A port, not storage (R20, R73; log 13). -/
  response : Option Response
  /-- The stream requests the last operation made, in order (R48, R54; the model's own field, log 13). -/
  requests : List StreamRequest
  /-- The operation in progress (R32, R33): one whose stream request has no answer (R191; log 11). -/
  inProgress : Option StreamOp
  /-- The byte source (R28). -/
  src : Source
  /-- The byte sink (R28). -/
  snk : Sink
  /-- The scratch buffer `SB[0]` to `SB[8]`, first byte first (R24). -/
  sb : List Byte
  /-- `B0`, the first byte of the form being decoded (R25). -/
  b0 : Byte
  /-- `EXTRA`, the count of leading 1-bits of `B0` (R25). -/
  extra : BitVec 4
  /-- `ACC`, the decoder's accumulator (R25). -/
  acc : Word
  /-- `N`, the length of the form being encoded (R26). -/
  n : BitVec 4
  /-- The index of the free values of this step (the model's own field, log 16). -/
  draws : Nat
  deriving DecidableEq, Repr

/-- The reasons the machine stops. -/
inductive Fault where
  /-- Raised by `step` alone, never by an instruction: an operation is in progress whose stream request is never answered, and the
  host's next action is not a reset. The operation never completes and the unit accepts nothing else (R191, R213, U13 "stuck").
  Safe: the model stops where the hardware hangs. Log 11. -/
  | operationNeverCompletes
  deriving DecidableEq, Repr

/-- The reasons an instruction has no meaning in the model. -/
inductive Refusal where
  /-- Raised by an arm of `exec` whose instruction has no meaning yet; at present by none. Safe. -/
  | notModelled (mnemonic : String)
  deriving DecidableEq, Repr

/-- The unit right after reset (R32, R210): idle, no response, nothing in progress. R32 leaves the scratch buffer and the working
values unspecified; here they are zero, DESIGN CHOICE, log 9 and log 10. The streams and the host's actions are not the unit's;
here they are empty, DESIGN CHOICE, log 14. -/
def State.reset : State where
  events := []
  response := none
  requests := []
  inProgress := none
  src := ⟨[], true, []⟩
  snk := ⟨[], []⟩
  sb := [0#8, 0#8, 0#8, 0#8, 0#8, 0#8, 0#8, 0#8, 0#8]
  b0 := 0#8
  extra := 0#4
  acc := 0#64
  n := 0#4
  draws := 0

end Sys2Proof.Machine
end

