-- ==== Sys2Proof/Machine/Ops.lean ====
section
/-! DEFINITION. The shared operations: the updates of State, the two stream primitives (R42, R43), how an operation answers or
fails (R13, R186), the stages of decoding and encoding that several instructions share (R131, R115), and what the host does
(R210, R55). -/

namespace Sys2Proof.Machine

/-- What a meaning answers. -/
abbrev Result := Host.Outcome State Fault Refusal

/-! ### Updates of State -/

/-- `B0 <- b`. -/
def State.setB0 (b : Byte) (s : State) : State := { s with b0 := b }

/-- `EXTRA <- e`, in 4 bits. -/
def State.setExtra (e : Nat) (s : State) : State := { s with extra := BitVec.ofNat 4 e }

/-- `ACC <- v`. -/
def State.setAcc (v : Word) (s : State) : State := { s with acc := v }

/-- `N <- n`, in 4 bits. -/
def State.setN (n : Nat) (s : State) : State := { s with n := BitVec.ofNat 4 n }

/-- `SB[i] <- b[i]` for the bytes of `b`; the bytes after them stay as they were (R116). -/
def State.setScratch (b : List Byte) (s : State) : State := { s with sb := b ++ s.sb.drop b.length }

/-- The source becomes `src`. -/
def State.setSource (src : Source) (s : State) : State := { s with src := src }

/-- The sink becomes `snk`. -/
def State.setSink (snk : Sink) (s : State) : State := { s with snk := snk }

/-- A stream request is made. -/
def State.addRequest (r : StreamRequest) (s : State) : State := { s with requests := s.requests ++ [r] }

/-- A response is given. -/
def State.respond (r : Response) (s : State) : State := { s with response := some r }

/-- The operation `op` stays in progress and gives no response (R191). -/
def State.suspend (op : StreamOp) (s : State) : State := { s with inProgress := some op, response := none }

/-- The decoder's working values are unspecified from here on (R25): free values, log 10. -/
def State.forgetDecoder (s : State) : State :=
  { s with b0 := Config.idleB0 s.draws, extra := Config.idleExtra s.draws, acc := Config.idleAcc s.draws }

/-- The encoder's working value is unspecified from here on (R26): a free value, log 10. -/
def State.forgetEncoder (s : State) : State := { s with n := Config.idleN s.draws }

/-! ### The answers of the collaborators -/

/-- The treatment of the next request; past the end of the plan the collaborator complies (log 4). -/
def nextAnswer : List Answer → Answer
  | [] => .comply
  | a :: _ => a

/-- The source after an answered read of `k` bytes. -/
def Source.take (k : Nat) (src : Source) : Source :=
  { rem := src.rem.drop k, ended := src.ended, plan := src.plan.tail }

/-- The source after a read that failed, or that has no answer: it has lost some of the bytes it had, none to all of them, how
many is free (R42, R189; SRC_AFTER_FAIL, log 5, log 12). -/
def Source.lose (draw : Nat) (src : Source) : Source :=
  { rem := src.rem.drop (Config.srcAfterFail draw), ended := src.ended, plan := src.plan.tail }

/-- The sink after an answered write. -/
def Sink.put (bytes : List Byte) (snk : Sink) : Sink :=
  { out := snk.out ++ bytes, plan := snk.plan.tail }

/-- The sink after a write that failed, or that has no answer: it has kept some of the bytes offered, none to all of them and
the first of them first, how many is free (R43, R118, R189; SNK_AFTER_FAIL, log 6, log 12). -/
def Sink.putPart (draw : Nat) (bytes : List Byte) (snk : Sink) : Sink :=
  { out := snk.out ++ bytes.take (Config.snkAfterFail draw), plan := snk.plan.tail }

/-- How a stage of an operation ends: with a value, with a condition raised (R13), or waiting for an answer (R191). -/
inductive Stage (α : Type) where
  | done (value : α) (s : State)
  | raised (c : Condition) (s : State)
  | waiting (s : State)

/-- The next stage runs when this one is done; nothing runs after a raise (R13). -/
def Stage.andThen {α β : Type} : Stage α → (α → State → Stage β) → Stage β
  | .done value s, f => f value s
  | .raised c s, _ => .raised c s
  | .waiting s, _ => .waiting s

/-- `MemRead(SRC, k)` (R42). A read of more bytes than are left, of a source that has not ended, has no answer (log 11). -/
def memRead (k : Nat) (s : State) : Stage (List Byte) :=
  let asked := s.addRequest (.read k)
  let lost := asked.setSource (s.src.lose s.draws)
  match nextAnswer s.src.plan with
  | .comply =>
    if k ≤ s.src.rem.length then .done (s.src.rem.take k) (asked.setSource (s.src.take k))
    else if s.src.ended then .raised .unexpectedEndOfStream lost
    else .waiting lost
  | .ioFault token => .raised (.ioFailure token) lost
  | .silent => .waiting lost

/-- `MemWrite(SNK, k, bytes)`, with `k` the number of bytes (R43). -/
def memWrite (bytes : List Byte) (s : State) : Stage Unit :=
  let asked := s.addRequest (.write bytes)
  let part := asked.setSink (s.snk.putPart s.draws bytes)
  match nextAnswer s.snk.plan with
  | .comply => .done () (asked.setSink (s.snk.put bytes))
  | .ioFault token => .raised (.ioFailure token) part
  | .silent => .waiting part

/-! ### How an operation ends -/

/-- `return v`: the response is `Ok(v)` (R13, R73). -/
def respondOk (v : Word) (s : State) : Result := .next (s.respond (.ok v))

/-- `raise c`: the response is `Fail(c)`. This is all of taking an exception on this unit: nothing is saved, control goes nowhere
and nothing is sticky (R186); nothing is entered, so there is no return operation (R187). -/
def raise (c : Condition) (s : State) : Result := .next (s.respond (.fail c))

/-- The working values of an operation live only inside it (R25, R26). -/
def State.retire (op : StreamOp) (s : State) : State :=
  match op with
  | .encode => s.forgetEncoder
  | .encodes => s.forgetEncoder
  | .decode => s.forgetDecoder
  | .decodes => s.forgetDecoder

/-- The end of an operation that makes stream requests: a response, or no end at all (R13, R191). -/
def finish (op : StreamOp) : Stage Word → Result
  | .done v s => respondOk v (s.retire op)
  | .raised c s => raise c (s.retire op)
  | .waiting s => .next (s.suspend op)

/-! ### The stages of a decode (R131) -/

/-- The decode once the first byte `b` is read and its count `e` of leading 1-bits is known: `EXTRA` and `ACC` are set, the extra
bytes are asked for in one request when there are any, and folded in (R131, R48). -/
def afterFirstByte (e : Nat) (b : Byte) (s : State) : Stage Word :=
  let s := ((s.setB0 b).setExtra e).setAcc (firstByteValue b e)
  if s.extra = 0#4 then .done s.acc s
  else
    (memRead s.extra.toNat s).andThen fun t s =>
      let s := s.setAcc (foldBytes s.acc t)
      .done s.acc s

/-- The whole decode: one byte, and what follows from it (R131). -/
def decodeForm (s : State) : Stage Word :=
  (memRead 1 s).andThen fun t s =>
    let b := t.headD 0#8
    afterFirstByte (clo8 b) b s

/-! ### The stages of an encode (R115) -/

/-- The encode of `v`: the form goes through the scratch buffer when it has two bytes or more, and is written in one request; the
value is the count of its bytes (R115, R116, R48). -/
def encodeForm (v : Word) (s : State) : Stage Word :=
  let b := vintEncode v
  let s := s.setN (vintSizeOf v)
  let s := if 2 ≤ s.n.toNat then s.setScratch b else s
  (memWrite b s).andThen fun _ s => .done (s.n.setWidth 64) s

/-! ### The host -/

/-- A step begins: the response and the requests of the step before are gone, and the free values move on (log 13, log 16). -/
def State.beginStep (s : State) : State :=
  { s with response := none, requests := [], draws := s.draws + 1 }

/-- The next action of the host is taken. -/
def State.takeEvent (rest : List HostEvent) (s : State) : State :=
  { s.beginStep with events := rest }

/-- A reset of the unit: the scratch buffer and the working values are unspecified, an operation in progress is abandoned without
a response, the unit is idle, and the streams are not touched (R32, R33, R210). The unspecified values are free, log 9, log 10. -/
def State.resetUnit (s : State) : State :=
  let s := s.forgetDecoder.forgetEncoder
  { s with
    inProgress := none
    response := none
    sb := (List.range Config.scratchBytes).map (Config.scratchAfterReset s.draws) }

/-- The bits of a command word that asks for DECODE; its operand is ignored (R71, R72). -/
def decodeRequest : CommandWord := commandWord 0x2#4 0#64

/-- The state in which the next step runs one given instruction. A first byte (8 bits) stands at the front of the source, zero
bytes after it, and the host asks for DECODE, which takes it from there; a command word is what the host presents next (log 1,
log 2). -/
def State.presentWord (nbits w : Nat) (s : State) : State :=
  if nbits = 8 then
    { s with
      inProgress := none
      events := .command decodeRequest :: s.events
      src := { s.src with rem := BitVec.ofNat 8 w :: (List.replicate Config.maxExtra 0#8 ++ s.src.rem), plan := [] } }
  else
    { s with inProgress := none, events := .command (BitVec.ofNat 68 w) :: s.events }

end Sys2Proof.Machine
end

