-- ==== Sys2Proof/Machine/BitCount.lean ====
section
/-! DEFINITION. The bit-length calculator: SIZEOF (40_bitcount_sizeof.md). -/

namespace Sys2Proof.Machine

/-- SIZEOF: `return zext_64(sizeOf(value))` (R96). -/
def execSizeof (value : Word) (s : State) : Result :=
  respondOk (BitVec.ofNat 64 (vintSizeOf value)) s

end Sys2Proof.Machine
end

