-- ==== Sys2Proof/Machine/Pipeline.lean ====
section
/-! DEFINITION. The signed pipeline: ENCODES, DECODES and SIZEOFS (44_signed_pipeline.md, R165). -/

namespace Sys2Proof.Machine

/-- ENCODES: the steps of ENCODE on `zigzagEncode(n)` (R166). -/
def execEncodes (n : Word) (s : State) : Result :=
  finish .encodes (encodeForm (zigzagEncode n) s)

/-- DECODES: the steps of DECODE, and then the ZigZag stage; the operand is ignored (R167, R72). -/
def execDecodes (s : State) : Result :=
  finish .decodes ((decodeForm s).andThen fun u s => .done (zigzagDecode u) s)

/-- SIZEOFS: `return zext_64(sizeOf(zigzagEncode(n)))` (R168). -/
def execSizeofs (n : Word) (s : State) : Result :=
  respondOk (BitVec.ofNat 64 (vintSizeOf (zigzagEncode n))) s

end Sys2Proof.Machine
end

