-- ==== Sys2Proof/Machine/Reserved.lean ====
section
/-! DEFINITION. The reserved operation codes 0x9 to 0xF: each fails with `IllegalOperation`, makes no stream request and changes
no state of the unit (R75, R183). -/

namespace Sys2Proof.Machine

/-- Reserved code 0x9 (R75, R183). -/
def execReserved9 (s : State) : Result := raise .illegalOperation s

/-- Reserved code 0xA (R75, R183). -/
def execReservedA (s : State) : Result := raise .illegalOperation s

/-- Reserved code 0xB (R75, R183). -/
def execReservedB (s : State) : Result := raise .illegalOperation s

/-- Reserved code 0xC (R75, R183). -/
def execReservedC (s : State) : Result := raise .illegalOperation s

/-- Reserved code 0xD (R75, R183). -/
def execReservedD (s : State) : Result := raise .illegalOperation s

/-- Reserved code 0xE (R75, R183). -/
def execReservedE (s : State) : Result := raise .illegalOperation s

/-- Reserved code 0xF (R75, R183). -/
def execReservedF (s : State) : Result := raise .illegalOperation s

end Sys2Proof.Machine
end

