-- ==== Sys2Proof/Machine/VintDecode.lean ====
section
/-! DEFINITION. The unsigned decoder: DECODE (42_vint_decode.md). -/

namespace Sys2Proof.Machine

/-- DECODE; the operand is ignored (R131, R72). -/
def execDecode (s : State) : Result :=
  finish .decode (decodeForm s)

end Sys2Proof.Machine
end

