-- ==== Sys2Proof/Machine/VintEncode.lean ====
section
/-! DEFINITION. The unsigned encoder: ENCODE and MARKER (41_vint_encode.md). -/

namespace Sys2Proof.Machine

/-- ENCODE (R115, R116, R118). -/
def execEncode (value : Word) (s : State) : Result :=
  finish .encode (encodeForm value s)

/-- MARKER: `OperandRange` above 8, else the marker byte, zero-extended (R111, R112). -/
def execMarker (extra : Word) (s : State) : Result :=
  if 8 < extra.toNat then raise .operandRange s
  else respondOk ((marker extra.toNat).setWidth 64) s

end Sys2Proof.Machine
end

