-- ==== Sys2Proof/Machine/Wire.lean ====
section
/-! DEFINITION. The nine classes of first byte. The instruction is the byte at the front of the source, already taken from it by
the first request of a DECODE; its effect is the rest of that DECODE (R60 to R66, R131; log 2). -/

namespace Sys2Proof.Machine

/-- A first byte with `e` leading 1-bits, as DECODE goes on from it (R131). -/
def runFirstByte (e : Nat) (b : Byte) (s : State) : Result :=
  finish .decode (afterFirstByte e b s)

/-- Class L1: 0 extra bytes (R62). -/
def execWireL1 (high : BitVec 7) (s : State) : Result := runFirstByte 0 (0b0#1 ++ high) s

/-- Class L2: 1 extra byte (R63). -/
def execWireL2 (high : BitVec 6) (s : State) : Result := runFirstByte 1 (0b10#2 ++ high) s

/-- Class L3: 2 extra bytes (R63). -/
def execWireL3 (high : BitVec 5) (s : State) : Result := runFirstByte 2 (0b110#3 ++ high) s

/-- Class L4: 3 extra bytes (R63). -/
def execWireL4 (high : BitVec 4) (s : State) : Result := runFirstByte 3 (0b1110#4 ++ high) s

/-- Class L5: 4 extra bytes (R63). -/
def execWireL5 (high : BitVec 3) (s : State) : Result := runFirstByte 4 (0b11110#5 ++ high) s

/-- Class L6: 5 extra bytes (R63). -/
def execWireL6 (high : BitVec 2) (s : State) : Result := runFirstByte 5 (0b111110#6 ++ high) s

/-- Class L7: 6 extra bytes (R63). -/
def execWireL7 (high : BitVec 1) (s : State) : Result := runFirstByte 6 (0b1111110#7 ++ high) s

/-- Class L8: 7 extra bytes (R64). -/
def execWireL8 (s : State) : Result := runFirstByte 7 0b11111110#8 s

/-- Class L9: 8 extra bytes (R65). -/
def execWireL9 (s : State) : Result := runFirstByte 8 0b11111111#8 s

end Sys2Proof.Machine
end

