-- ==== Sys2Proof/Machine/ZigZag.lean ====
section
/-! DEFINITION. The ZigZag sign mapper: ZZENC and ZZDEC (43_zigzag.md). -/

namespace Sys2Proof.Machine

/-- ZZENC (R152). -/
def execZzenc (n : Word) (s : State) : Result :=
  respondOk (zigzagEncode n) s

/-- ZZDEC (R155). -/
def execZzdec (u : Word) (s : State) : Result :=
  respondOk (zigzagDecode u) s

end Sys2Proof.Machine
end

