-- ==== Sys2Proof/Machine/Dispatch.lean ====
section
/-! DEFINITION. What each instruction does: one arm per constructor of Instr. -/

namespace Sys2Proof.Machine

/-- The meaning of every instruction. -/
def exec (i : Instr) (s : State) : Host.Outcome State Fault Refusal :=
  match i with
  | .sizeof value => Sys2Proof.Machine.execSizeof value s
  | .encode value => Sys2Proof.Machine.execEncode value s
  | .decode _ => Sys2Proof.Machine.execDecode s
  | .marker extra => Sys2Proof.Machine.execMarker extra s
  | .zzenc n => Sys2Proof.Machine.execZzenc n s
  | .zzdec u => Sys2Proof.Machine.execZzdec u s
  | .encodes n => Sys2Proof.Machine.execEncodes n s
  | .decodes _ => Sys2Proof.Machine.execDecodes s
  | .sizeofs n => Sys2Proof.Machine.execSizeofs n s
  | .reserved9 _ => Sys2Proof.Machine.execReserved9 s
  | .reservedA _ => Sys2Proof.Machine.execReservedA s
  | .reservedB _ => Sys2Proof.Machine.execReservedB s
  | .reservedC _ => Sys2Proof.Machine.execReservedC s
  | .reservedD _ => Sys2Proof.Machine.execReservedD s
  | .reservedE _ => Sys2Proof.Machine.execReservedE s
  | .reservedF _ => Sys2Proof.Machine.execReservedF s
  | .wireL1 high => Sys2Proof.Machine.execWireL1 high s
  | .wireL2 high => Sys2Proof.Machine.execWireL2 high s
  | .wireL3 high => Sys2Proof.Machine.execWireL3 high s
  | .wireL4 high => Sys2Proof.Machine.execWireL4 high s
  | .wireL5 high => Sys2Proof.Machine.execWireL5 high s
  | .wireL6 high => Sys2Proof.Machine.execWireL6 high s
  | .wireL7 high => Sys2Proof.Machine.execWireL7 high s
  | .wireL8 => Sys2Proof.Machine.execWireL8 s
  | .wireL9 => Sys2Proof.Machine.execWireL9 s

end Sys2Proof.Machine
end

