-- ==== Sys2Proof/Machine/Events.lean ====
section
/-! DEFINITION. What one step does: the host's next action, taken by an idle unit (R15, R21, R54, R210, R213). -/

namespace Sys2Proof.Machine

/-- What the host's action does once it is taken. -/
def runEvent : HostEvent → State → Result
  | .command w, s => exec (decodeCommand w) s
  | .reset, s => .next s.resetUnit
  | .attachSource src, s => .next (s.setSource src)
  | .attachSink snk, s => .next (s.setSink snk)

/-- An idle unit takes the host's next action; with none pending it stays idle. A unit with an operation in progress that has no
answer accepts a reset and nothing else (R33, R191, R213; log 11). -/
def advance (s : State) : Result :=
  match s.inProgress, s.events with
  | none, [] => .next s.beginStep
  | none, e :: rest => runEvent e (s.takeEvent rest)
  | some _, .reset :: rest => .next (s.takeEvent rest).resetUnit
  | some _, _ => .fault .operationNeverCompletes

end Sys2Proof.Machine
end

