-- ==== Sys2Proof/Machine/Flags.lean ====
section
/-! DEFINITION. The unit has no flags (R22). What stands in their place is the status of a response: its code and the 68-bit
response word (R73, R180). -/

namespace Sys2Proof.Machine

/-- The code of a condition, 1 to 4 (R180). -/
def Condition.code : Condition → BitVec 4
  | .unexpectedEndOfStream => 1#4
  | .ioFailure _ => 2#4
  | .illegalOperation => 3#4
  | .operandRange => 4#4

/-- `STATUS`: 0 for `Ok`, else the condition's code (R73, R180). -/
def Response.status : Response → BitVec 4
  | .ok _ => 0#4
  | .fail c => c.code

/-- `RESULT`: the result of an `Ok`; of a failure it is unspecified (R73, U8), so a free value of the draw `d` (log 8). -/
def Response.resultField (d : Nat) : Response → Word
  | .ok result => result
  | .fail _ => Config.resultOfFailure d

/-- The response word, `STATUS[67:64]` and `RESULT[63:0]` (R73). -/
def Response.word (d : Nat) (r : Response) : ResponseWord :=
  r.status ++ r.resultField d

/-- What travels beside the word: the payload of an `IoFailure`, of whatever type IOINFO is (R73, R182). -/
def Response.info (p : IoInfo) : Response → Option p.type
  | .fail (.ioFailure token) => some (p.named token)
  | .fail .unexpectedEndOfStream => none
  | .fail .illegalOperation => none
  | .fail .operandRange => none
  | .ok _ => none

/-- The word on the response port, if there is a response. -/
def State.responseWord (s : State) : Option ResponseWord :=
  s.response.map (Response.word s.draws)

end Sys2Proof.Machine
end

