-- ==== Sys2Proof/Machine/Step.lean ====
section
/-! DEFINITION. One step of the machine (R15), and where a word is put so that the next step runs it. -/

namespace Sys2Proof.Machine

/-- One step: the host's next action (R21, R54). -/
def step (s : State) : Host.Outcome State Fault Refusal := advance s

/-- The state whose next step runs exactly the instruction of the opcode table's word `w` of `nbits` bits (log 1, log 2). -/
def State.withFetchWord (s : State) (nbits w : Nat) : State := s.presentWord nbits w

end Sys2Proof.Machine
end

