-- ==== Sys2Proof/Machine/Units.lean ====
section
/-! DEFINITION. Several units side by side (R31, R196). Each has its own scratch buffer, working values and streams, because each
is a State of its own: a configuration that shares a stream cannot be written down, which is how it is refused (U11; log 17). -/

namespace Sys2Proof.Machine

/-- Several units. -/
abbrev Units := List State

/-- Unit `k` takes one step; the others do nothing. A number that names no unit changes nothing. -/
def stepUnit (k : Nat) (us : Units) : Host.Outcome Units Fault Refusal :=
  match us[k]? with
  | none => .next us
  | some s =>
    match step s with
    | .next t => .next (us.set k t)
    | .fault r => .fault r
    | .refused r => .refused r

/-- Between operations the host hands the source of one unit to another, which hands over its own, so that no source is ever shared
(R196). Nothing happens while one of the two has an operation in progress (R215). -/
def handSource (i j : Nat) (us : Units) : Units :=
  match us[i]?, us[j]? with
  | some a, some b =>
    if a.inProgress = none ∧ b.inProgress = none then
      (us.set i (a.setSource b.src)).set j (b.setSource a.src)
    else us
  | _, _ => us

/-- The same for sinks (R196, R215). -/
def handSink (i j : Nat) (us : Units) : Units :=
  match us[i]?, us[j]? with
  | some a, some b =>
    if a.inProgress = none ∧ b.inProgress = none then
      (us.set i (a.setSink b.snk)).set j (b.setSink a.snk)
    else us
  | _, _ => us

end Sys2Proof.Machine
end

