-- ==== Sys2Proof/Safety.lean ====
section
/-! DEFINITION. What counts as a safe run, and the premises and the invariant that statements use. -/

namespace Sys2Proof.Machine

/-! ### Premises about the collaborators -/

/-- The source answers the next read, of `k` bytes, with `Ok` (R42). -/
abbrev Source.serves (k : Nat) (src : Source) : Prop :=
  nextAnswer src.plan = .comply ∧ k ≤ src.rem.length

/-- The sink answers the next write with `Ok` (R43). -/
abbrev Sink.serves (snk : Sink) : Prop := nextAnswer snk.plan = .comply

/-- The source has ended after its bytes and does not fault: the premise of R139. -/
abbrev Source.reliable (src : Source) : Prop :=
  src.ended = true ∧ ∀ a ∈ src.plan, a = Answer.comply

/-- The sink does not fault. -/
abbrev Sink.reliable (snk : Sink) : Prop := ∀ a ∈ snk.plan, a = Answer.comply

/-- The source answers the next read, of `k` bytes, with the condition `c` (R42). -/
abbrev Source.fails (k : Nat) (c : Condition) (src : Source) : Prop :=
  (c = .unexpectedEndOfStream ∧ nextAnswer src.plan = .comply ∧ src.rem.length < k ∧ src.ended = true)
    ∨ ∃ token, c = .ioFailure token ∧ nextAnswer src.plan = .ioFault token

/-- The source never answers the next read, of `k` bytes (R191): it stays silent, or it has fewer bytes left and has not ended
(log 11). -/
abbrev Source.unanswered (k : Nat) (src : Source) : Prop :=
  nextAnswer src.plan = .silent
    ∨ (nextAnswer src.plan = .comply ∧ src.rem.length < k ∧ src.ended = false)

/-- The sink never answers the next write (R191). -/
abbrev Sink.unanswered (snk : Sink) : Prop := nextAnswer snk.plan = .silent

/-! ### Safe runs -/

/-- The unit is idle and accepts a request (R32). -/
abbrev State.idle (s : State) : Prop := s.inProgress = none

/-- A step from here does not stop: the unit is idle, or the host resets it (R33, R191). -/
abbrev State.safe (s : State) : Prop :=
  s.idle ∨ s.events.head? = some .reset

/-! ### The invariant -/

/-- The sizes a request may have: 1 to 8 bytes of a read, 1 to 9 of a write (R42, R43, R48). -/
def StreamRequest.legal : StreamRequest → Bool
  | .read k => 1 ≤ k && k ≤ 8
  | .write bytes => 1 ≤ bytes.length && bytes.length ≤ 9

/-- What the working values hold while an operation is in progress: an encode waits on its one write, of `N` bytes, `N` in 1 to 9
(R26, R48); a decode waits on its read of the first byte, or on its read of `EXTRA` bytes, and then `EXTRA` is the count of
leading 1-bits of `B0` (R25, R48, R131). -/
def State.progressOk (s : State) : Bool :=
  match s.inProgress with
  | none => true
  | some .encode | some .encodes =>
    match s.requests with
    | [.write bytes] => s.n.toNat == bytes.length
    | _ => false
  | some .decode | some .decodes =>
    s.requests == [.read 1]
      || (s.requests == [.read 1, .read s.extra.toNat] && s.extra.toNat == clo8 s.b0)

/-- The invariant every step keeps: the scratch buffer has nine bytes (R24), an operation makes at most two stream requests
(R224), each of a legal size (R42, R43, R48), and an operation in progress has no response (R33) and consistent working values. -/
abbrev State.Inv (s : State) : Prop :=
  s.sb.length = Config.scratchBytes
    ∧ s.requests.length ≤ 2
    ∧ (∀ r ∈ s.requests, r.legal = true)
    ∧ (s.inProgress ≠ none → s.response = none)
    ∧ s.progressOk = true

end Sys2Proof.Machine
end

