-- ==== Sys2Proof/WellFormed.lean ====
section
/-! DEFINITION. Which instructions are well formed. Widths are in the types, so what is left to check is what the unit itself
checks before it computes anything (R188, items 1 and 2): the operation code selects an operation, and MARKER's operand is in its
domain. An ill-formed instruction still decodes and still runs: it answers its condition (R183, R184). -/

namespace Sys2Proof

/-- The operation code selects an operation. The codes 0x9 to 0xF select none (R75, R183). A first byte has no operation code,
and every byte is legal there (R68). -/
def Instr.selectsOperation : Instr → Bool
  | .sizeof _ | .encode _ | .decode _ | .marker _ | .zzenc _ | .zzdec _ => true
  | .encodes _ | .decodes _ | .sizeofs _ => true
  | .reserved9 _ | .reservedA _ | .reservedB _ | .reservedC _ => false
  | .reservedD _ | .reservedE _ | .reservedF _ => false
  | .wireL1 _ | .wireL2 _ | .wireL3 _ | .wireL4 _ | .wireL5 _ => true
  | .wireL6 _ | .wireL7 _ | .wireL8 | .wireL9 => true

/-- The operand is in the operation's domain. Only MARKER has one that is smaller than its 64 bits: 0 to 8 (R72, R112, R184). -/
def Instr.operandInDomain : Instr → Bool
  | .marker extra => extra.toNat ≤ 8
  | .sizeof _ | .encode _ | .decode _ | .zzenc _ | .zzdec _ => true
  | .encodes _ | .decodes _ | .sizeofs _ => true
  | .reserved9 _ | .reservedA _ | .reservedB _ | .reservedC _ => true
  | .reservedD _ | .reservedE _ | .reservedF _ => true
  | .wireL1 _ | .wireL2 _ | .wireL3 _ | .wireL4 _ | .wireL5 _ => true
  | .wireL6 _ | .wireL7 _ | .wireL8 | .wireL9 => true

/-- The unit's own checks before it computes (R188) pass. -/
def Instr.wellFormed (i : Instr) : Bool :=
  i.selectsOperation && i.operandInDomain

end Sys2Proof
end

