-- ==== Sys2Proof/Certificates/Slice0/Obligations.lean ====
section
/-! DEFINITION. The statements for the provers. Each docstring names the rules of spec/ it formalises. Words used in them: `exec i s`
is what instruction `i` does in state `s`; "the free values" are the fields the spec leaves unspecified after an operation (`n` after
an encode, `b0`, `extra` and `acc` after a decode), which a statement only says exist. -/

namespace Sys2Proof.Spec

open Sys2Proof.Machine

/-- The number a list of bytes stands for, the first byte most significant: the sum of R66. -/
def beValue : List Byte → Nat
  | [] => 0
  | b :: t => b.toNat * 2 ^ (8 * t.length) + beValue t

/-- R66's formula: the value of a form with first byte `b`, `e` extra bytes, and `t` the bytes after the first. -/
def formValue (e : Nat) (b : Byte) (t : List Byte) : Nat :=
  b.toNat % 2 ^ (8 - e) * 2 ^ (8 * e) + beValue (t.take e)

/-- A well-formed form: a first byte and as many bytes as it announces, whatever they are (R68). -/
def IsForm (f : List Byte) : Prop := ∃ b t, f = b :: t ∧ t.length = clo8 b

/-- R94's contract: `k` is the smallest number in 1 to 9 with `v < 2^CAP(k)`. -/
def IsLeastLength (v : Word) (k : Nat) : Prop :=
  1 ≤ k ∧ k ≤ 9 ∧ v.toNat < 2 ^ cap k ∧ ∀ m, 1 ≤ m → m < k → 2 ^ cap m ≤ v.toNat

/-- The instructions that read the source: DECODE, DECODES, and the first bytes of a form of two bytes or more (R40). -/
def readsSource : Instr → Bool
  | .decode _ | .decodes _ => true
  | .wireL2 _ | .wireL3 _ | .wireL4 _ | .wireL5 _ | .wireL6 _ | .wireL7 _ | .wireL8 | .wireL9 => true
  | .wireL1 _ | .sizeof _ | .encode _ | .marker _ | .zzenc _ | .zzdec _ | .encodes _ | .sizeofs _ => false
  | .reserved9 _ | .reservedA _ | .reservedB _ | .reservedC _ | .reservedD _ | .reservedE _ | .reservedF _ => false

/-- The instructions that write the sink: ENCODE and ENCODES (R40). -/
def writesSink : Instr → Bool
  | .encode _ | .encodes _ => true
  | .decode _ | .decodes _ | .sizeof _ | .marker _ | .zzenc _ | .zzdec _ | .sizeofs _ => false
  | .reserved9 _ | .reservedA _ | .reservedB _ | .reservedC _ | .reservedD _ | .reservedE _ | .reservedF _ => false
  | .wireL1 _ | .wireL2 _ | .wireL3 _ | .wireL4 _ | .wireL5 _ | .wireL6 _ | .wireL7 _ | .wireL8 | .wireL9 => false

/-- The instructions that are a DECODE or the rest of one: they use the decoder's working values (R25). -/
def usesDecoder : Instr → Bool
  | .decode _ | .decodes _ => true
  | .wireL1 _ | .wireL2 _ | .wireL3 _ | .wireL4 _ | .wireL5 _ | .wireL6 _ | .wireL7 _ | .wireL8 | .wireL9 => true
  | .sizeof _ | .encode _ | .marker _ | .zzenc _ | .zzdec _ | .encodes _ | .sizeofs _ => false
  | .reserved9 _ | .reservedA _ | .reservedB _ | .reservedC _ | .reservedD _ | .reservedE _ | .reservedF _ => false

/-- A first byte whose form has `e` extra bytes runs to its end: with the source serving the one read of `e` bytes, the response is
the value of the form, `e` bytes are gone from the source, and nothing else changes but the free values. `i` is the instruction
of the first byte and `b` the byte. -/
def FirstByteCompletes (i : Instr) (e : Nat) (b : Byte) : Prop :=
  ∀ s : State, s.src.serves e →
    ∃ b0 extra acc, exec i s = .next { s with
      response := some (.ok (BitVec.ofNat 64 (formValue e b s.src.rem)))
      requests := s.requests ++ [.read e]
      src := { s.src with rem := s.src.rem.drop e, plan := s.src.plan.tail }
      b0 := b0, extra := extra, acc := acc }

end Sys2Proof.Spec

open Sys2Proof Sys2Proof.Machine Sys2Proof.Spec

/-! ### Encoding -/

/-- R70, R71, R75, R61: every instruction's word decodes to it with every operand at every value, and every command word and every
first byte is the word of the instruction it decodes to. That holds of DECODE, DECODES and the reserved codes too because an
instruction keeps the operand bits that the unit ignores, the model's choice, log 22. -/
def Obligations.EncodedInstructionsRoundTrip : Prop :=
  (∀ i : Instr, decodeEncoded (encode i) = i) ∧ (∀ w : Encoded, encode (decodeEncoded w) = w)

/-- R70, R60: the same on bytes (the byte layout of a command word is the model's choice, log 3): the bytes of an instruction decode
to it and leave the bytes after them, and the opcode table's number of a command word decodes to that word's instruction. -/
def Obligations.InstructionBytesDecode : Prop :=
  (∀ (i : Instr) (rest : List Byte),
    decode (encode i).port ((encode i).bytes ++ rest) = .ok (i, rest))
  ∧ (∀ w : CommandWord, decodeTableWord 72 w.toNat = some (decodeCommand w))
  ∧ (∀ b : Byte, decodeTableWord 8 b.toNat = some (decodeByte0 b))

/-- 95_test_vectors.md W1, W2, W4 to W7, W9 to W12 and R61: words written out from the spec decode to the instruction they stand
for. A sanity statement. -/
def Obligations.WrittenOutWordsDecode : Prop :=
  decodeCommand 0x00000000000000257#68 = .sizeof 599#64
  ∧ decodeCommand 0x10000000000000257#68 = .encode 599#64
  ∧ decodeCommand 0x20000000000000000#68 = .decode 0#64
  ∧ decodeCommand 0x30000000000000003#68 = .marker 3#64
  ∧ decodeCommand 0x4FFFFFFFFFFFFFED4#68 = .zzenc 0xFFFFFFFFFFFFFED4#64
  ∧ decodeCommand 0x50000000000000257#68 = .zzdec 599#64
  ∧ decodeCommand 0x6FFFFFFFFFFFFFED4#68 = .encodes 0xFFFFFFFFFFFFFED4#64
  ∧ decodeCommand 0x70000000000000000#68 = .decodes 0#64
  ∧ decodeCommand 0x8FFFFFFFFFFFFFED4#68 = .sizeofs 0xFFFFFFFFFFFFFED4#64
  ∧ decodeCommand 0x90000000000000000#68 = .reserved9 0#64
  ∧ decodeCommand 0xF0000000000000000#68 = .reservedF 0#64
  ∧ decodeByte0 0b01111111#8 = .wireL1 127#7
  ∧ decodeByte0 0b10000010#8 = .wireL2 2#6
  ∧ decodeByte0 0b11101010#8 = .wireL4 10#4
  ∧ decodeByte0 0b11111110#8 = .wireL8
  ∧ decodeByte0 0b11111111#8 = .wireL9

/-- R61: exactly one of the nine rows of the table covers a first byte, its count of extra bytes is the count of leading 1-bits
(R92), and the ranges of the table's last column. -/
def Obligations.FirstByteClassesPartition : Prop :=
  ∀ b : Byte,
    (wireRows.filter fun r => r.covers b).map WireRow.extra = [clo8 b]
    ∧ (clo8 b = 0 ↔ b.toNat ≤ 0x7F) ∧ (clo8 b = 1 ↔ 0x80 ≤ b.toNat ∧ b.toNat ≤ 0xBF)
    ∧ (clo8 b = 2 ↔ 0xC0 ≤ b.toNat ∧ b.toNat ≤ 0xDF) ∧ (clo8 b = 3 ↔ 0xE0 ≤ b.toNat ∧ b.toNat ≤ 0xEF)
    ∧ (clo8 b = 4 ↔ 0xF0 ≤ b.toNat ∧ b.toNat ≤ 0xF7) ∧ (clo8 b = 5 ↔ 0xF8 ≤ b.toNat ∧ b.toNat ≤ 0xFB)
    ∧ (clo8 b = 6 ↔ 0xFC ≤ b.toNat ∧ b.toNat ≤ 0xFD) ∧ (clo8 b = 7 ↔ b.toNat = 0xFE)
    ∧ (clo8 b = 8 ↔ b.toNat = 0xFF)

/-! ### Bit counting and size -/

/-- R90: `clz64(x)` is `63 - floor(log2(x))` for `x >= 1`, and 64 for 0. -/
def Obligations.LeadingZerosFromLogarithm : Prop :=
  (∀ x : Word, 1 ≤ x.toNat → clz64 x = 63 - Nat.log 2 x.toNat ∧ clz64 x ≤ 63) ∧ clz64 0#64 = 64
  ∧ clz64 1#64 = 63 ∧ clz64 (BitVec.ofNat 64 (2 ^ 63)) = 0 ∧ clz64 (BitVec.ofNat 64 (2 ^ 64 - 1)) = 0

/-- R91: `bitlen64` is `64 - clz64(x OR 1)`, lies in 1 to 64, counts 0 as one bit, and bounds `x >= 1` between two powers of 2. -/
def Obligations.BitLengthBoundsTheValue : Prop :=
  (∀ x : Word, bitlen64 x = 64 - clz64 (x ||| 1#64) ∧ 1 ≤ bitlen64 x ∧ bitlen64 x ≤ 64)
  ∧ (∀ x : Word, 1 ≤ x.toNat → 2 ^ (bitlen64 x - 1) ≤ x.toNat ∧ x.toNat < 2 ^ bitlen64 x)
  ∧ bitlen64 0#64 = 1 ∧ bitlen64 1#64 = 1 ∧ bitlen64 127#64 = 7 ∧ bitlen64 128#64 = 8
  ∧ bitlen64 (BitVec.ofNat 64 (2 ^ 56 - 1)) = 56 ∧ bitlen64 (BitVec.ofNat 64 (2 ^ 56)) = 57
  ∧ bitlen64 (BitVec.ofNat 64 (2 ^ 64 - 1)) = 64

/-- R92: `clo8(b)` is the largest `e` in 0 to 8 such that bits 7 down to `8 - e` of `b` are all 1; and it is the count of leading
zeros of the complement, 56 taken off when that is made on 64 bits. -/
def Obligations.LeadingOnesIsTheLargestCount : Prop :=
  (∀ (b : Byte) (e : Nat), e ≤ 8 → (e ≤ clo8 b ↔ ∀ j, 8 - e ≤ j → j ≤ 7 → b.getLsbD j = true))
  ∧ (∀ b : Byte, clo8 b ≤ 8 ∧ clo8 b = clz64 ((~~~ b).setWidth 64) - 56)

/-- R94, R93: `sizeOf(v)` is the smallest length whose capacity holds `v`; it is total. -/
def Obligations.SizeOfIsTheLeastFittingLength : Prop :=
  (∀ v : Word, IsLeastLength v (vintSizeOf v))
  ∧ (List.range 9).map (fun k => cap (k + 1)) = [7, 14, 21, 28, 35, 42, 49, 56, 64]

/-- R95: the constant-time formula agrees with the definition for every value. -/
def Obligations.SizeOfClosedForm : Prop :=
  ∀ v : Word, vintSizeOf v = min 9 ((bitlen64 v + 6) / 7)

/-- R97: the five properties of `sizeOf`. -/
def Obligations.SizeOfStatedProperties : Prop :=
  vintSizeOf 0#64 = 1
  ∧ (∀ a b : Word, a.toNat ≤ b.toNat → vintSizeOf a ≤ vintSizeOf b)
  ∧ vintSizeOf (BitVec.ofNat 64 (2 ^ 64 - 1)) = 9
  ∧ (∀ k, 1 ≤ k → k ≤ 8 →
      vintSizeOf (BitVec.ofNat 64 (2 ^ (7 * k) - 1)) = k ∧ vintSizeOf (BitVec.ofNat 64 (2 ^ (7 * k))) = k + 1)
  ∧ (∀ v : Word, vintSizeOf v = 9 ↔ 2 ^ 56 ≤ v.toNat)

/-- R98: the leading 1-bits of the first byte of `encode(v)` tell its length. -/
def Obligations.FirstByteTellsTheLength : Prop :=
  ∀ v : Word, ∃ b t, vintEncode v = b :: t ∧ clo8 b = vintSizeOf v - 1 ∧ t.length = clo8 b

/-- R96, R94: SIZEOF always answers `Ok` with the least length that fits, makes no stream request and writes no state. -/
def Obligations.SizeofAnswersTheLength : Prop :=
  ∀ (v : Word) (s : State), ∃ k, IsLeastLength v k ∧
    exec (.sizeof v) s = .next { s with response := some (.ok (BitVec.ofNat 64 k)) }

/-! ### The encoder -/

/-- R110: `marker(e)` is the complement in 8 bits of `0xFF >>> e`; it has `e` leading 1-bits and then `8 - e` 0-bits, and `clo8` counts
them back. -/
def Obligations.MarkerHasLeadingOnes : Prop :=
  ∀ e, e ≤ 8 → marker e = ~~~ (0xFF#8 >>> e) ∧ (marker e).toNat = 2 ^ 8 - 2 ^ (8 - e) ∧ clo8 (marker e) = e

/-- R111, R112: MARKER with an operand in 0 to 8 answers the marker byte, zero-extended; with an operand above 8 it fails with
`OperandRange`. Either way it changes nothing else. -/
def Obligations.MarkerAnswersOrFails : Prop :=
  ∀ (extra : Word) (s : State),
    (extra.toNat ≤ 8 → exec (.marker extra) s =
      .next { s with response := some (.ok (BitVec.ofNat 64 (2 ^ 8 - 2 ^ (8 - extra.toNat)))) })
    ∧ (8 < extra.toNat → exec (.marker extra) s = .next { s with response := some (.fail .operandRange) })

/-- R113, R62 to R65: the bytes of `encode(v)`: as many as `sizeOf(v)`, the last `e` the low bytes of `v` with the most significant
first, the first the marker above the value bits that are left. -/
def Obligations.EncodedFormLayout : Prop :=
  ∀ (v : Word) (e : Nat), vintSizeOf v = e + 1 →
    (vintEncode v).length = e + 1
    ∧ (∀ i, 1 ≤ i → i ≤ e → (vintEncode v)[i]? = some (BitVec.ofNat 8 (v.toNat / 2 ^ (8 * (e - i)))))
    ∧ (vintEncode v)[0]? = some (BitVec.ofNat 8 (2 ^ 8 - 2 ^ (8 - e) + v.toNat / 2 ^ (8 * e)))

/-- R114: the value bits of the first byte never run into the marker or the terminator. -/
def Obligations.FirstByteIsWellFormed : Prop :=
  ∀ (v : Word) (e : Nat), vintSizeOf v = e + 1 →
    ∃ b t, vintEncode v = b :: t ∧ clo8 b = e
    ∧ (1 ≤ e → e ≤ 7 → v.toNat / 2 ^ (8 * e) < 2 ^ (7 - e) ∧ byteOf v e &&& marker e = 0#8 ∧ b.getLsbD (7 - e) = false)
    ∧ (e = 7 → b = 0xFE#8) ∧ (e = 8 → b = 0xFF#8) ∧ (e = 0 → b.toNat = v.toNat ∧ b.toNat < 0x80)

/-- R117: size consistency, minimality, only canonical forms, one form per value, and no form is the beginning of another. -/
def Obligations.EncodedFormsAreCanonical : Prop :=
  (∀ v : Word, (vintEncode v).length = vintSizeOf v)
  ∧ (∀ v : Word, (vintEncode v).head? = some 0xFF#8 → 2 ^ 56 ≤ v.toNat)
  ∧ (∀ (i : Instr) (s t : State) (r : Word), exec i s = .next t → t.response = some (.ok r) →
      t.snk.out = s.snk.out ∨ ∃ v, t.snk.out = s.snk.out ++ vintEncode v)
  ∧ (∀ a b : Word, vintEncode a = vintEncode b → a = b)
  ∧ (∀ a b : Word, vintEncode a <+: vintEncode b → a = b)

/-- R115, R116, R48: ENCODE and ENCODES, with the sink serving the write, answer the count of bytes, the sink gains the form, the
scratch buffer takes it when it has two bytes or more, and nothing else changes but the free value. -/
def Obligations.EncodeWritesTheForm : Prop :=
  ∀ (v : Word) (s : State), s.snk.serves →
    (∃ n, exec (.encode v) s = .next { s with
      response := some (.ok (BitVec.ofNat 64 (vintSizeOf v)))
      requests := s.requests ++ [.write (vintEncode v)]
      snk := ⟨s.snk.out ++ vintEncode v, s.snk.plan.tail⟩
      sb := if 2 ≤ vintSizeOf v then vintEncode v ++ s.sb.drop (vintSizeOf v) else s.sb
      n := n })
    ∧ (∃ n, exec (.encodes v) s = .next { s with
      response := some (.ok (BitVec.ofNat 64 (vintSizeOf (zigzagEncode v))))
      requests := s.requests ++ [.write (vintEncode (zigzagEncode v))]
      snk := ⟨s.snk.out ++ vintEncode (zigzagEncode v), s.snk.plan.tail⟩
      sb := if 2 ≤ vintSizeOf (zigzagEncode v)
        then vintEncode (zigzagEncode v) ++ s.sb.drop (vintSizeOf (zigzagEncode v)) else s.sb
      n := n })

/-- R118: when the sink answers the write with `IoFault(info)`, ENCODE and ENCODES end with `Fail(IoFailure, info)`, the payload
unchanged, after one request, and the sink has kept some part of the form from its first byte on, none to all. -/
def Obligations.EncodeReportsSinkFault : Prop :=
  ∀ (v : Word) (s : State) (token : IoToken), nextAnswer s.snk.plan = .ioFault token →
    (∃ t k, exec (.encode v) s = .next t ∧ t.response = some (.fail (.ioFailure token))
      ∧ t.requests = s.requests ++ [.write (vintEncode v)]
      ∧ k ≤ vintSizeOf v ∧ t.snk.out = s.snk.out ++ (vintEncode v).take k)
    ∧ (∃ t k, exec (.encodes v) s = .next t ∧ t.response = some (.fail (.ioFailure token))
      ∧ t.requests = s.requests ++ [.write (vintEncode (zigzagEncode v))]
      ∧ k ≤ vintSizeOf (zigzagEncode v) ∧ t.snk.out = s.snk.out ++ (vintEncode (zigzagEncode v)).take k)

/-- R116, R24: whatever the sink answers, after ENCODE of a form of two bytes or more the scratch buffer holds the form in its first
bytes and the bytes after them are as they were, and after ENCODE of a one-byte form it is as it was. ENCODES does the same for
the mapped value. -/
def Obligations.ScratchBufferHoldsTheForm : Prop :=
  ∀ (v u : Word) (s t : State),
    (exec (.encode v) s = .next t ∧ u = v ∨ exec (.encodes v) s = .next t ∧ u = zigzagEncode v) →
      (2 ≤ vintSizeOf u →
        (∀ i, i < vintSizeOf u → t.sb[i]? = (vintEncode u)[i]?)
        ∧ (∀ i, vintSizeOf u ≤ i → t.sb[i]? = s.sb[i]?))
      ∧ (vintSizeOf u = 1 → t.sb = s.sb)

/-- R115, R118, R24, R26 (the frame of ENCODE and ENCODES): whatever the sink answers, the source, the decoder's working values, the
host's actions and the draws are unchanged, the sink keeps what it had and has gained a part of the form from its first byte on,
exactly one entry of the sink's plan is used, and an operation that gives a response is not left in progress. -/
def Obligations.EncodeFrame : Prop :=
  ∀ (v u : Word) (s t : State),
    (exec (.encode v) s = .next t ∧ u = v ∨ exec (.encodes v) s = .next t ∧ u = zigzagEncode v) →
      t.src = s.src ∧ t.b0 = s.b0 ∧ t.extra = s.extra ∧ t.acc = s.acc ∧ t.events = s.events ∧ t.draws = s.draws
      ∧ t.snk.plan = s.snk.plan.tail ∧ (t.response ≠ none → t.inProgress = s.inProgress)
      ∧ (∃ k, t.snk.out = s.snk.out ++ (vintEncode u).take k)
      ∧ (∀ i, i < s.snk.out.length → t.snk.out[i]? = s.snk.out[i]?)

/-! ### The decoder -/

/-- R66: decoding a well-formed form gives the assembly formula's value, and uses the form and no more; the formula's sum is below
`2^64`. -/
def Obligations.DecodingAssemblesTheValue : Prop :=
  ∀ (b : Byte) (t rest : List Byte), t.length = clo8 b →
    vintDecode (b :: t ++ rest) = some (BitVec.ofNat 64 (formValue (clo8 b) b t), 1 + clo8 b)
    ∧ formValue (clo8 b) b t < 2 ^ 64

/-- R132: the fold never overflows: it starts below `2^(7 - EXTRA)`, or at 0 when `EXTRA` is 8; every step is `ACC * 256 + byte`, so no
bit is lost; and the last value is below `2^(7 + 7*EXTRA)` when `EXTRA` is at most 7. -/
def Obligations.FoldNeverOverflows : Prop :=
  ∀ (b : Byte) (t : List Byte), t.length ≤ clo8 b →
    (clo8 b ≤ 7 → (firstByteValue b (clo8 b)).toNat < 2 ^ (7 - clo8 b))
    ∧ (clo8 b = 8 → firstByteValue b (clo8 b) = 0#64)
    ∧ (∀ (c : Byte) (u : List Byte), t = u ++ [c] →
      (foldBytes (firstByteValue b (clo8 b)) t).toNat = (foldBytes (firstByteValue b (clo8 b)) u).toNat * 256 + c.toNat)
    ∧ (clo8 b ≤ 7 → (foldBytes (firstByteValue b (clo8 b)) t).toNat < 2 ^ (7 + 7 * clo8 b))

/-- R131, R66, R48, R51: DECODE, with the source serving its reads, answers the value of the form at the front of the source, whatever
its operand is, uses exactly the bytes of the form, and changes nothing else but the free values. DECODES answers the pattern of
`zigzagDecode` of that value and does the same otherwise (R167). -/
def Obligations.DecodeAnswersTheValue : Prop :=
  ∀ (o : Word) (s : State) (b : Byte) (t : List Byte),
    s.src.rem = b :: t → nextAnswer s.src.plan = .comply →
    (1 ≤ clo8 b → nextAnswer s.src.plan.tail = .comply ∧ clo8 b ≤ t.length) →
    let v := BitVec.ofNat 64 (formValue (clo8 b) b t)
    let src : Source :=
      ⟨t.drop (clo8 b), s.src.ended, if clo8 b = 0 then s.src.plan.tail else s.src.plan.tail.tail⟩
    let requests := s.requests ++ if clo8 b = 0 then [.read 1] else [.read 1, .read (clo8 b)]
    (∃ b0 extra acc, exec (.decode o) s = .next { s with
      response := some (.ok v), requests := requests, src := src, b0 := b0, extra := extra, acc := acc })
    ∧ (∃ b0 extra acc, exec (.decodes o) s = .next { s with
      response := some (.ok (zigzagDecode v)), requests := requests, src := src, b0 := b0, extra := extra, acc := acc })

/-- R139: over a source that has ended and does not fault, DECODE answers `Ok(value)` and leaves the source without its first `used`
bytes exactly when `decodeBytes` gives `(value, used)`, and fails with `UnexpectedEndOfStream` exactly when it gives Truncated. -/
def Obligations.DecodeAgreesWithDecodeBytes : Prop :=
  ∀ (o : Word) (s : State), s.src.reliable →
    (∀ (v : Word) (used : Nat), vintDecode s.src.rem = some (v, used) ↔
      used ≤ s.src.rem.length ∧ ∃ t, exec (.decode o) s = .next t ∧ t.response = some (.ok v)
        ∧ t.src.rem = s.src.rem.drop used)
    ∧ (vintDecode s.src.rem = none ↔
      ∃ t, exec (.decode o) s = .next t ∧ t.response = some (.fail .unexpectedEndOfStream))

/-- R134: truncation. With nothing left and the source ended, the first read fails DECODE; with the first byte read and fewer than
`EXTRA` bytes left, the second does, the first byte is used up, and some number of the others is lost. No value is returned.
DECODES fails under the same conditions (R167). -/
def Obligations.DecodeReportsTruncation : Prop :=
  ∀ (o : Word) (s : State) (i : Instr), i = .decode o ∨ i = .decodes o → s.src.ended = true →
    nextAnswer s.src.plan = .comply →
    (s.src.rem = [] → ∃ t, exec i s = .next t ∧ t.response = some (.fail .unexpectedEndOfStream)
      ∧ t.src.rem = [] ∧ t.requests = s.requests ++ [.read 1])
    ∧ (∀ b u, s.src.rem = b :: u → u.length < clo8 b → nextAnswer s.src.plan.tail = .comply →
      ∃ t k, exec i s = .next t ∧ t.response = some (.fail .unexpectedEndOfStream)
        ∧ t.src.rem = u.drop k ∧ t.requests = s.requests ++ [.read 1, .read (clo8 b)])

/-- R135: when either read answers `IoFault(info)`, DECODE and DECODES end with `Fail(IoFailure, info)`, the payload unchanged, with
no retry; the source has lost some number of the bytes it had when that read was made (R42, R189). -/
def Obligations.DecodeReportsSourceFault : Prop :=
  ∀ (o : Word) (s : State) (i : Instr) (token : IoToken), i = .decode o ∨ i = .decodes o →
    (nextAnswer s.src.plan = .ioFault token →
      ∃ t k, exec i s = .next t ∧ t.response = some (.fail (.ioFailure token))
        ∧ t.src.rem = s.src.rem.drop k ∧ t.requests = s.requests ++ [.read 1])
    ∧ (∀ b u, s.src.rem = b :: u → nextAnswer s.src.plan = .comply → 1 ≤ clo8 b →
      nextAnswer s.src.plan.tail = .ioFault token →
      ∃ t k, exec i s = .next t ∧ t.response = some (.fail (.ioFailure token))
        ∧ t.src.rem = u.drop k ∧ t.requests = s.requests ++ [.read 1, .read (clo8 b)])

/-- R136, R51: a DECODE or DECODES that answers `Ok` has removed exactly `1 + EXTRA` bytes from the front of the source, and `EXTRA`
depends on the first byte alone. -/
def Obligations.DecodeConsumesExactlyTheForm : Prop :=
  ∀ (o : Word) (s t : State) (i : Instr) (v : Word), i = .decode o ∨ i = .decodes o →
    exec i s = .next t → t.response = some (.ok v) →
    ∃ b, s.src.rem.head? = some b ∧ 1 + clo8 b ≤ s.src.rem.length
      ∧ s.src.rem = s.src.rem.take (1 + clo8 b) ++ t.src.rem

/-- R137, R68: every well-formed form is accepted, minimal or not: for every value and every length that can hold it there is a form of
that length, and DECODE of it, over a source that does not fault, answers that value; and DECODE fails on no well-formed form. -/
def Obligations.NonCanonicalFormsAreAccepted : Prop :=
  (∀ (v : Word) (e : Nat), e ≤ 8 → v.toNat < 2 ^ cap (e + 1) →
    ∃ f, IsForm f ∧ f.length = e + 1 ∧
      ∀ (o : Word) (s : State) (rest : List Byte), s.src.rem = f ++ rest → s.src.reliable →
        ∃ t, exec (.decode o) s = .next t ∧ t.response = some (.ok v) ∧ t.src.rem = rest)
  ∧ (∀ (f rest : List Byte) (o : Word) (s : State), IsForm f → s.src.rem = f ++ rest → s.src.reliable →
      ∃ t v, exec (.decode o) s = .next t ∧ t.response = some (.ok v) ∧ t.src.rem = rest)

/-- R138: decoding an encoded value gives it back and uses exactly its bytes, whatever follows; and as operations, if ENCODE answers
`Ok` and the bytes the sink gained are the next bytes of a source that does not fault, DECODE answers the value. -/
def Obligations.DecodeInvertsEncode : Prop :=
  (∀ (v : Word) (rest : List Byte), vintDecode (vintEncode v ++ rest) = some (v, vintSizeOf v))
  ∧ (∀ (v r o : Word) (s t : State), exec (.encode v) s = .next t → t.response = some (.ok r) →
      ∃ f, t.snk.out = s.snk.out ++ f ∧
        ∀ (u : State) (rest : List Byte), u.src.rem = f ++ rest → u.src.reliable →
          ∃ w, exec (.decode o) u = .next w ∧ w.response = some (.ok v) ∧ w.src.rem = rest)

/-- R131, R61, R92: DECODE, once its first read is served, runs the instruction of the byte it read (that a first byte is an instruction
is the model's choice, log 2). -/
def Obligations.DecodeRunsTheFirstByte : Prop :=
  ∀ (o : Word) (s : State) (b : Byte) (t : List Byte), s.src.rem = b :: t → nextAnswer s.src.plan = .comply →
    exec (.decode o) s = exec (decodeByte0 b) { s with
      requests := s.requests ++ [.read 1], src := ⟨t, s.src.ended, s.src.plan.tail⟩ }

/-- R62, R66: a first byte of class L1 is a whole form, whatever the streams hold: it answers its seven value bits, makes no request,
and changes nothing else but the free values (that a first byte is an instruction is the model's choice, log 2). -/
def Obligations.OneByteFormAnswersItself : Prop :=
  ∀ (high : BitVec 7) (s : State), ∃ b0 extra acc,
    exec (.wireL1 high) s = .next { s with
      response := some (.ok (BitVec.ofNat 64 high.toNat)), b0 := b0, extra := extra, acc := acc }

/-- R63, R66: the first bytes of classes L2 to L7 run to the value of their form (that a first byte is an instruction is the model's
choice, log 2). -/
def Obligations.MiddleClassesAnswerTheForm : Prop :=
  (∀ h : BitVec 6, FirstByteCompletes (.wireL2 h) 1 (BitVec.ofNat 8 (0x80 + h.toNat)))
  ∧ (∀ h : BitVec 5, FirstByteCompletes (.wireL3 h) 2 (BitVec.ofNat 8 (0xC0 + h.toNat)))
  ∧ (∀ h : BitVec 4, FirstByteCompletes (.wireL4 h) 3 (BitVec.ofNat 8 (0xE0 + h.toNat)))
  ∧ (∀ h : BitVec 3, FirstByteCompletes (.wireL5 h) 4 (BitVec.ofNat 8 (0xF0 + h.toNat)))
  ∧ (∀ h : BitVec 2, FirstByteCompletes (.wireL6 h) 5 (BitVec.ofNat 8 (0xF8 + h.toNat)))
  ∧ (∀ h : BitVec 1, FirstByteCompletes (.wireL7 h) 6 (BitVec.ofNat 8 (0xFC + h.toNat)))

/-- R64, R65: the first bytes 0xFE and 0xFF carry no value bit: the response is the number that the next seven or eight bytes stand
for (that a first byte is an instruction is the model's choice, log 2). -/
def Obligations.LongClassesAnswerTheTrailingBytes : Prop :=
  ∀ (i : Instr) (e : Nat), (i = .wireL8 ∧ e = 7 ∨ i = .wireL9 ∧ e = 8) → ∀ s : State, s.src.serves e →
    ∃ b0 extra acc, exec i s = .next { s with
      response := some (.ok (BitVec.ofNat 64 (beValue (s.src.rem.take e))))
      requests := s.requests ++ [.read e]
      src := { s.src with rem := s.src.rem.drop e, plan := s.src.plan.tail }
      b0 := b0, extra := extra, acc := acc }

/-- R25, R42, R131 (the frame of DECODE, DECODES and the first bytes): whatever the source answers, the sink, the scratch buffer, `N`,
the host's actions and the draws are unchanged, the source has only lost bytes from its front, and an operation that gives a
response is not left in progress (that a first byte is an instruction is the model's choice, log 2). -/
def Obligations.DecodeFrame : Prop :=
  ∀ (i : Instr) (s t : State), usesDecoder i = true → exec i s = .next t →
    t.snk = s.snk ∧ t.sb = s.sb ∧ t.n = s.n ∧ t.events = s.events ∧ t.draws = s.draws
    ∧ (t.response ≠ none → t.inProgress = s.inProgress)
    ∧ t.src.ended = s.src.ended ∧ (∃ k, t.src.rem = s.src.rem.drop k)

/-! ### ZigZag and the signed pipeline -/

/-- R152, R153: ZZENC always answers `Ok`, with `2n` for `n >= 0` and `-2n - 1` for `n < 0`, and changes nothing else. -/
def Obligations.ZzencAnswersTheMappedValue : Prop :=
  ∀ (n : Int) (s : State), -2 ^ 63 ≤ n → n < 2 ^ 63 →
    ∃ u : Word, (u.toNat : Int) = (if 0 ≤ n then 2 * n else -2 * n - 1) ∧
      exec (.zzenc (bits64 n)) s = .next { s with response := some (.ok u) }

/-- R155, R156: ZZDEC always answers `Ok`, with `u / 2` for even `u` and `-(u + 1) / 2` for odd `u` as a two's-complement pattern, and
changes nothing else; and the two maps are inverse to each other in both directions. -/
def Obligations.ZzdecAnswersTheInverse : Prop :=
  (∀ (u : Word) (s : State), ∃ p : Word,
    signed64 p = (if u.toNat % 2 = 0 then (u.toNat : Int) / 2 else -(((u.toNat : Int) + 1) / 2)) ∧
    exec (.zzdec u) s = .next { s with response := some (.ok p) })
  ∧ (∀ p : Word, zigzagDecode (zigzagEncode p) = p) ∧ (∀ u : Word, zigzagEncode (zigzagDecode u) = u)

/-- R157: the ordering property: the `k`-th of 0, -1, 1, -2, 2, ... maps to `k`, and its three consequences. -/
def Obligations.ZigzagFollowsTheInterleavedOrder : Prop :=
  (∀ k : Nat, k < 2 ^ 64 →
    (zigzagEncode (bits64 (if k % 2 = 0 then (k : Int) / 2 else -(((k : Int) + 1) / 2)))).toNat = k)
  ∧ (∀ a b : Int, -2 ^ 63 ≤ a → a < 2 ^ 63 → -2 ^ 63 ≤ b → b < 2 ^ 63 → |a| < |b| →
      (zigzagEncode (bits64 a)).toNat < (zigzagEncode (bits64 b)).toNat)
  ∧ (∀ m : Nat, 1 ≤ m → m < 2 ^ 63 →
      (zigzagEncode (bits64 (-m))).toNat = 2 * m - 1 ∧ (zigzagEncode (bits64 m)).toNat = 2 * m)
  ∧ (∀ (n : Int) (k : Nat), -2 ^ 63 ≤ n → n < 2 ^ 63 → 1 ≤ k → k ≤ 64 →
      ((zigzagEncode (bits64 n)).toNat < 2 ^ k ↔ -2 ^ (k - 1) ≤ n ∧ n < 2 ^ (k - 1)))

/-- R168, R171: SIZEOFS always answers `Ok` with the smallest length `k` with `-2^(CAP(k)-1) <= n < 2^(CAP(k)-1)`, makes no stream
request and writes no state. -/
def Obligations.SizeofsAnswersTheSignedLength : Prop :=
  ∀ (n : Int) (s : State), -2 ^ 63 ≤ n → n < 2 ^ 63 →
    ∃ k, 1 ≤ k ∧ k ≤ 9 ∧ (-2 ^ (cap k - 1) ≤ n ∧ n < 2 ^ (cap k - 1))
      ∧ (∀ m, 1 ≤ m → m < k → ¬ (-2 ^ (cap m - 1) ≤ n ∧ n < 2 ^ (cap m - 1)))
      ∧ exec (.sizeofs (bits64 n)) s = .next { s with response := some (.ok (BitVec.ofNat 64 k)) }

/-- R165, R169: the signed operations are the unsigned ones composed with the ZigZag maps: ENCODES gives the response, the streams and
the scratch buffer that ENCODE gives on the mapped value, DECODES answers `Ok` exactly when DECODE does, with the mapped value, and
fails as DECODE does, with the same streams, and SIZEOFS answers what SIZEOF does on the mapped value. -/
def Obligations.SignedPipelineIsTheComposition : Prop :=
  ∀ (p o : Word) (s : State),
    (∃ t u, exec (.encodes p) s = .next t ∧ exec (.encode (zigzagEncode p)) s = .next u
      ∧ t.response = u.response ∧ t.snk = u.snk ∧ t.src = u.src ∧ t.sb = u.sb ∧ t.requests = u.requests)
    ∧ (∃ t u, exec (.decodes o) s = .next t ∧ exec (.decode o) s = .next u
      ∧ t.snk = u.snk ∧ t.src = u.src ∧ t.sb = u.sb ∧ t.requests = u.requests
      ∧ (∀ v, u.response = some (.ok v) → t.response = some (.ok (zigzagDecode v)))
      ∧ (∀ c, u.response = some (.fail c) → t.response = some (.fail c))
      ∧ (u.response = none → t.response = none))
    ∧ exec (.sizeofs p) s = exec (.sizeof (zigzagEncode p)) s

/-- R169: round trip and size consistency of the signed pipeline, as operations: if ENCODES of `n` answers `Ok(k)` and the bytes the
sink gained are the next bytes of a source that does not fault, DECODES answers `n` and uses exactly those `k` bytes, and SIZEOFS
answers `k`. -/
def Obligations.SignedPipelineRoundTrip : Prop :=
  ∀ (n r o : Word) (s t : State), exec (.encodes n) s = .next t → t.response = some (.ok r) →
    ∃ f, t.snk.out = s.snk.out ++ f ∧ f.length = r.toNat
      ∧ (∀ (u : State) (rest : List Byte), u.src.rem = f ++ rest → u.src.reliable →
          ∃ w, exec (.decodes o) u = .next w ∧ w.response = some (.ok n) ∧ w.src.rem = rest)
      ∧ (∀ u : State, ∃ w, exec (.sizeofs n) u = .next w ∧ w.response = some (.ok r))

/-! ### Reserved codes, conditions, requests -/

/-- R75, R183: every command word whose `OP` is 0x9 to 0xF, whatever its operand, fails with `IllegalOperation`, makes no stream request
and changes no state; the seven reserved instructions are what such words decode to. -/
def Obligations.ReservedCodesFail : Prop :=
  (∀ (o : Word) (s : State) (i : Instr),
    i = .reserved9 o ∨ i = .reservedA o ∨ i = .reservedB o ∨ i = .reservedC o ∨ i = .reservedD o ∨ i = .reservedE o
      ∨ i = .reservedF o →
    exec i s = .next { s with response := some (.fail .illegalOperation) })
  ∧ (∀ (w : CommandWord) (s : State), 9 ≤ w.toNat / 2 ^ 64 →
    exec (decodeCommand w) s = .next { s with response := some (.fail .illegalOperation) })

/-- R180: which instruction raises which condition, and the conditions' codes. SIZEOF, SIZEOFS, ZZENC and ZZDEC raise nothing. -/
def Obligations.ConditionsByOperation : Prop :=
  (∀ (i : Instr) (s t : State) (c : Condition), exec i s = .next t → t.response = some (.fail c) →
    (c = .unexpectedEndOfStream → readsSource i = true)
    ∧ (∀ token, c = .ioFailure token → readsSource i = true ∨ writesSink i = true)
    ∧ (c = .illegalOperation ↔ i.selectsOperation = false)
    ∧ (c = .operandRange ↔ i.operandInDomain = false))
  ∧ (∀ token, Condition.unexpectedEndOfStream.code = 1#4 ∧ (Condition.ioFailure token).code = 2#4
    ∧ Condition.illegalOperation.code = 3#4 ∧ Condition.operandRange.code = 4#4)

/-- R48: the widths each operation moves: DECODE and DECODES ask for one byte and then, only when `EXTRA >= 1`, and always then if
the first read was served, once for `EXTRA` bytes; ENCODE and ENCODES make one write of `N` bytes, 1 to 9; SIZEOF, SIZEOFS,
MARKER, ZZENC and ZZDEC ask for nothing. -/
def Obligations.RequestWidths : Prop :=
  (∀ (o : Word) (s t : State) (i : Instr), i = .decode o ∨ i = .decodes o → exec i s = .next t →
    t.requests = s.requests ++ [.read 1]
    ∨ ∃ b, s.src.rem.head? = some b ∧ 1 ≤ clo8 b ∧ clo8 b ≤ 8
        ∧ t.requests = s.requests ++ [.read 1, .read (clo8 b)])
  ∧ (∀ (o : Word) (s t : State) (i : Instr) (b : Byte), i = .decode o ∨ i = .decodes o → exec i s = .next t →
    s.src.rem.head? = some b → nextAnswer s.src.plan = .comply → 1 ≤ clo8 b →
    t.requests = s.requests ++ [.read 1, .read (clo8 b)])
  ∧ (∀ (v u : Word) (s t : State),
      (exec (.encode v) s = .next t ∧ u = v ∨ exec (.encodes v) s = .next t ∧ u = zigzagEncode v) →
      ∃ bytes, t.requests = s.requests ++ [.write bytes] ∧ bytes.length = vintSizeOf u
        ∧ 1 ≤ bytes.length ∧ bytes.length ≤ 9)
  ∧ (∀ (v : Word) (s t : State) (i : Instr),
      i = .sizeof v ∨ i = .sizeofs v ∨ i = .marker v ∨ i = .zzenc v ∨ i = .zzdec v → exec i s = .next t →
      t.requests = s.requests)

/-- R73: the fields of a response word: status 0 and the result for `Ok`, the condition's code for a failure (whose `RESULT` is
unspecified: nothing is said of it); and beside the word the `info` of an `IoFailure`, of whatever type IOINFO is, and of no other
response. -/
def Obligations.ResponseWordFields : Prop :=
  ∀ (d : Nat) (v : Word) (c : Condition) (r : Response) (p : IoInfo),
    (Response.word d (.ok v)).extractLsb' 64 4 = 0#4 ∧ (Response.word d (.ok v)).extractLsb' 0 64 = v
    ∧ (Response.word d (.fail c)).extractLsb' 64 4 = c.code ∧ 1 ≤ c.code.toNat ∧ c.code.toNat ≤ 4
    ∧ (∀ token, r = .fail (.ioFailure token) → r.info p = some (p.named token))
    ∧ ((∀ token, r ≠ .fail (.ioFailure token)) → r.info p = none)

/-! ### The whole machine -/

/-- R191: an idle unit completes an instruction, gives a response and is idle again, when the requests that instruction makes are
answered: the write of ENCODE and ENCODES; the read of one byte of DECODE and DECODES and, once that is served, the read of the
extra bytes; the read of the extra bytes of a first byte (that a first byte is an instruction is the model's choice, log 2). The
instructions that make no request complete whatever the streams are. -/
def Obligations.OperationsCompleteWhenAnswered : Prop :=
  (∀ (v : Word) (s : State) (i : Instr), s.idle → i = .encode v ∨ i = .encodes v → ¬ s.snk.unanswered →
    ∃ t r, exec i s = .next t ∧ t.response = some r ∧ t.idle)
  ∧ (∀ (o : Word) (s : State) (i : Instr), s.idle → i = .decode o ∨ i = .decodes o → ¬ s.src.unanswered 1 →
    (∀ b, s.src.rem.head? = some b → nextAnswer s.src.plan = .comply → 1 ≤ clo8 b →
      ¬ (s.src.take 1).unanswered (clo8 b)) →
    ∃ t r, exec i s = .next t ∧ t.response = some r ∧ t.idle)
  ∧ (∀ (b : Byte) (s : State) (i : Instr), s.idle → encode i = .firstByte b →
    (1 ≤ clo8 b → ¬ s.src.unanswered (clo8 b)) →
    ∃ t r, exec i s = .next t ∧ t.response = some r ∧ t.idle)
  ∧ (∀ (s : State) (i : Instr), s.idle → usesDecoder i = false → writesSink i = false →
    ∃ t r, exec i s = .next t ∧ t.response = some r ∧ t.idle)

/-- R191, R213, U13: an operation one of whose stream requests is never answered stays in progress and gives no response: the write of
ENCODE and ENCODES; the first read of DECODE and DECODES, or the second when the first is served; the read of a first byte (that
a first byte is an instruction is the model's choice, log 2). A read has no answer when the source stays silent, and when fewer bytes
are left of a source that has not ended. A unit with an operation in progress accepts nothing but a reset: the model stops there
(log 11). -/
def Obligations.UnansweredOperationHangs : Prop :=
  (∀ (v : Word) (s : State), s.snk.unanswered →
    (∃ t, exec (.encode v) s = .next t ∧ t.inProgress = some .encode ∧ t.response = none)
    ∧ (∃ t, exec (.encodes v) s = .next t ∧ t.inProgress = some .encodes ∧ t.response = none))
  ∧ (∀ (o : Word) (s : State),
    (s.src.unanswered 1 ∨ ∃ b, s.src.rem.head? = some b ∧ nextAnswer s.src.plan = .comply ∧ 1 ≤ clo8 b
      ∧ (s.src.take 1).unanswered (clo8 b)) →
    (∃ t, exec (.decode o) s = .next t ∧ t.inProgress = some .decode ∧ t.response = none)
    ∧ (∃ t, exec (.decodes o) s = .next t ∧ t.inProgress = some .decodes ∧ t.response = none))
  ∧ (∀ (b : Byte) (s : State) (i : Instr), encode i = .firstByte b → 1 ≤ clo8 b → s.src.unanswered (clo8 b) →
    ∃ t, exec i s = .next t ∧ t.inProgress = some .decode ∧ t.response = none)
  ∧ (∀ (s : State) (op : StreamOp), s.inProgress = some op → s.events.head? ≠ some .reset →
    step s = .fault .operationNeverCompletes)

/-- R191, R33, log 11: a step answers a next state exactly from a safe state; it never refuses. -/
def Obligations.StepStopsExactlyWhenHung : Prop :=
  ∀ s : State, (s.safe ↔ ∃ t, step s = .next t) ∧ (∀ r, step s ≠ .refused r)

/-- R33, R210, R32: a reset, at any time, abandons an operation in progress without a response, leaves the unit idle, and leaves the
streams as they are. -/
def Obligations.ResetAbandonsTheOperation : Prop :=
  ∀ (s : State) (rest : List HostEvent), s.events = .reset :: rest →
    ∃ t, step s = .next t ∧ t.idle ∧ t.response = none ∧ t.src = s.src ∧ t.snk = s.snk ∧ t.events = rest

/-- R15, R21, R54: a step of an idle unit with a command word pending is the meaning of the instruction the word decodes to, in that
state with the word taken, the ports of the step before cleared and the draws moved on (log 13, log 16); with nothing pending the
unit stays as it is but for the ports and the draws (log 15); and an attached stream becomes the unit's stream (log 20). -/
def Obligations.StepRunsTheDecodedCommand : Prop :=
  ∀ (s : State) (rest : List HostEvent), s.idle →
    (∀ w, s.events = .command w :: rest →
      step s = exec (decodeCommand w) { s with events := rest, response := none, requests := [], draws := s.draws + 1 })
    ∧ (s.events = [] → step s = .next { s with response := none, requests := [], draws := s.draws + 1 })
    ∧ (∀ src, s.events = .attachSource src :: rest →
      step s = .next { s with events := rest, response := none, requests := [], draws := s.draws + 1, src := src })
    ∧ (∀ snk, s.events = .attachSink snk :: rest →
      step s = .next { s with events := rest, response := none, requests := [], draws := s.draws + 1, snk := snk })

/-- Log 1, log 2 (the model's choice): the state `withFetchWord` builds runs the instruction of the given word at its very next step: a
command word as the host presents it, and a first byte as DECODE takes it from the source. -/
def Obligations.FetchWordRunsTheInstruction : Prop :=
  ∀ s : State,
    (∀ w : CommandWord, step (s.withFetchWord 72 w.toNat) = exec (decodeCommand w) { s with
      inProgress := none, response := none, requests := [], draws := s.draws + 1 })
    ∧ (∀ b : Byte, step (s.withFetchWord 8 b.toNat) = exec (decodeByte0 b) { s with
      inProgress := none, response := none, requests := [.read 1], draws := s.draws + 1
      src := ⟨List.replicate 8 0#8 ++ s.src.rem, s.src.ended, []⟩ })

/-- R54, points 1 and 2: two ENCODE commands that follow each other add their forms one after the other with no byte between; two
DECODE commands over a source that holds two forms answer the two values in order and leave the rest. -/
def Obligations.OperationsFollowTheHostsOrder : Prop :=
  (∀ (s : State) (v1 v2 : Word) (rest : List HostEvent), s.idle → s.snk.reliable →
    s.events = .command (commandWord 0x1#4 v1) :: .command (commandWord 0x1#4 v2) :: rest →
    ∃ t u, step s = .next t ∧ step t = .next u ∧ u.snk.out = s.snk.out ++ (vintEncode v1 ++ vintEncode v2)
      ∧ u.events = rest ∧ u.idle)
  ∧ (∀ (s : State) (o1 o2 : Word) (rest : List HostEvent) (b1 b2 : Byte) (t1 t2 after : List Byte), s.idle →
    s.src.reliable → t1.length = clo8 b1 → t2.length = clo8 b2 →
    s.src.rem = (b1 :: t1) ++ (b2 :: t2) ++ after →
    s.events = .command (commandWord 0x2#4 o1) :: .command (commandWord 0x2#4 o2) :: rest →
    ∃ t u, step s = .next t ∧ step t = .next u
      ∧ t.response = some (.ok (BitVec.ofNat 64 (formValue (clo8 b1) b1 t1)))
      ∧ u.response = some (.ok (BitVec.ofNat 64 (formValue (clo8 b2) b2 t2)))
      ∧ u.src.rem = after ∧ u.events = rest ∧ u.idle)

/-- R30: what an operation answers and asks of the streams does not depend on the scratch buffer, on the working values or on any earlier
operation: two states that agree on the streams, and on the draws that stand for the open part of the collaborators' answers, give the
same response, the same requests and the same streams (the draws are the model's own field, log 16). -/
def Obligations.ResponsesDoNotDependOnStoredState : Prop :=
  ∀ (i : Instr) (s u : State), s.src = u.src → s.snk = u.snk → s.draws = u.draws →
    ∃ t w r, exec i s = .next t ∧ exec i u = .next w ∧ t.response = w.response ∧ t.src = w.src ∧ t.snk = w.snk
      ∧ t.requests = s.requests ++ r ∧ w.requests = u.requests ++ r

/-- R24, R25, R26, R42, R43, R48, R224: every step keeps the invariant: nine bytes of scratch buffer, at most two stream requests of
legal sizes, and an operation in progress without a response and with consistent working values (that a response and the requests
last one step is the model's choice, log 13). -/
def Obligations.StepKeepsTheInvariant : Prop :=
  ∀ s t : State, s.Inv → step s = .next t → t.Inv

/-- R32, R211: after reset the unit is idle, holds no response, and meets the invariant. -/
def Obligations.ResetStateMeetsTheInvariant : Prop :=
  State.reset.Inv ∧ State.reset.idle ∧ State.reset.response = none

/-- R31, R196: two units share nothing: a step of one leaves the others as they are, and the steps of two units may be taken in either
order (the list of units is the model's, log 17). -/
def Obligations.UnitsShareNothing : Prop :=
  (∀ (k : Nat) (us vs : Units), stepUnit k us = .next vs → ∀ j, j ≠ k → vs[j]? = us[j]?)
  ∧ (∀ (j k : Nat) (us vs ws : Units), j ≠ k → stepUnit j us = .next vs → stepUnit k vs = .next ws →
      ∃ vs', stepUnit k us = .next vs' ∧ stepUnit j vs' = .next ws)

/-- R196, R215: handing a source or a sink from one unit to another. When both units are idle the two have exchanged that stream and
nothing else of them has changed; when either has an operation in progress nothing happens. Either way the other units are as they
were, and the streams the units hold are the streams they held, each as often: none is held twice that was held once (the list of
units, and that the other hands over its own, are the model's, log 17). -/
def Obligations.HandingOverExchangesTheStream : Prop :=
  (∀ (i j : Nat) (us : Units) (a b : State), us[i]? = some a → us[j]? = some b → a.idle → b.idle →
    (handSource i j us)[i]? = some { a with src := b.src } ∧ (handSource i j us)[j]? = some { b with src := a.src }
    ∧ (handSink i j us)[i]? = some { a with snk := b.snk } ∧ (handSink i j us)[j]? = some { b with snk := a.snk })
  ∧ (∀ (i j : Nat) (us : Units) (a b : State), us[i]? = some a → us[j]? = some b → ¬ (a.idle ∧ b.idle) →
    handSource i j us = us ∧ handSink i j us = us)
  ∧ (∀ (i j k : Nat) (us : Units), k ≠ i → k ≠ j →
    (handSource i j us)[k]? = us[k]? ∧ (handSink i j us)[k]? = us[k]?)
  ∧ (∀ (i j : Nat) (us : Units),
    ((handSource i j us).map State.src).Perm (us.map State.src)
    ∧ ((handSink i j us).map State.snk).Perm (us.map State.snk))
end

