-- ==== Sys2Proof/Laws/Functions.lean ====
section
/-! SUPPORT. Facts about the pure functions of Operands.lean and about the fields of a command word. -/

namespace Sys2Proof.Machine

/-! ### Bit counting -/

/-- The count of leading 1-bits is at most 8. -/
theorem clo8_le (b : Byte) : clo8 b ≤ 8 := by
  unfold clo8; repeat' split
  all_goals omega

/-- What `leadingZeros` counts: the low `k` bits of `x` are 0, or they lie between two powers of 2. -/
theorem leadingZeros_spec (x : Word) : ∀ k, k ≤ 64 → (leadingZeros x k ≤ k ∧
    (x.toNat % 2 ^ k = 0 → leadingZeros x k = k) ∧
    (x.toNat % 2 ^ k ≠ 0 → 2 ^ (k - leadingZeros x k - 1) ≤ x.toNat % 2 ^ k
      ∧ x.toNat % 2 ^ k < 2 ^ (k - leadingZeros x k) ∧ leadingZeros x k < k)) := by
  intro k
  induction k with
  | zero => intro _; simp [leadingZeros, Nat.mod_one]
  | succ k ih =>
    intro hk
    obtain ⟨h1, h2, h3⟩ := ih (by omega)
    have hbit : x.getLsbD k = decide (x.toNat / 2 ^ k % 2 = 1) := by
      rw [BitVec.getLsbD, Nat.testBit_eq_decide_div_mod_eq]
    have hmod : x.toNat % 2 ^ (k + 1) = x.toNat % 2 ^ k + 2 ^ k * (x.toNat / 2 ^ k % 2) := by
      rw [pow_succ, Nat.mod_mul]
    have hlt : x.toNat % 2 ^ k < 2 ^ k := Nat.mod_lt _ (by positivity)
    have hp : 2 ^ (k + 1) = 2 ^ k * 2 := pow_succ 2 k
    simp only [leadingZeros, hbit]
    have hpos : 0 < 2 ^ k := by positivity
    rcases Nat.mod_two_eq_zero_or_one (x.toNat / 2 ^ k) with h0 | h0
    · simp only [h0, mul_zero, add_zero] at hmod ⊢
      rw [hmod]
      simp only [show decide ((0:Nat) = 1) = false from rfl, Bool.false_eq_true, ite_false]
      refine ⟨by omega, fun h => by rw [h2 h], fun h => ?_⟩
      have := h3 h
      rw [show k + 1 - (leadingZeros x k + 1) = k - leadingZeros x k by omega]
      exact ⟨this.1, this.2.1, by omega⟩
    · simp only [h0, mul_one] at hmod ⊢
      simp
      rw [hmod]
      constructor
      · omega
      · intro _; omega

/-! ### Size -/

/-- The length `vintSizeOf` gives, with the two powers of 2 the value lies between. -/
theorem vintSizeOf_cases (v : Word) :
    ∃ k, vintSizeOf v = k ∧ 1 ≤ k ∧ k ≤ 9 ∧ v.toNat < 2 ^ cap k ∧ (k = 1 ∨ 2 ^ cap (k - 1) ≤ v.toNat) := by
  have hv := v.isLt
  unfold vintSizeOf
  split
  · exact ⟨1, rfl, by decide, by decide, by assumption, .inl rfl⟩
  split
  · exact ⟨2, rfl, by decide, by decide, by assumption, .inr (Nat.not_lt.mp ‹_›)⟩
  split
  · exact ⟨3, rfl, by decide, by decide, by assumption, .inr (Nat.not_lt.mp ‹¬ v.toNat < 2 ^ 14›)⟩
  split
  · exact ⟨4, rfl, by decide, by decide, by assumption, .inr (Nat.not_lt.mp ‹¬ v.toNat < 2 ^ 21›)⟩
  split
  · exact ⟨5, rfl, by decide, by decide, by assumption, .inr (Nat.not_lt.mp ‹¬ v.toNat < 2 ^ 28›)⟩
  split
  · exact ⟨6, rfl, by decide, by decide, by assumption, .inr (Nat.not_lt.mp ‹¬ v.toNat < 2 ^ 35›)⟩
  split
  · exact ⟨7, rfl, by decide, by decide, by assumption, .inr (Nat.not_lt.mp ‹¬ v.toNat < 2 ^ 42›)⟩
  split
  · exact ⟨8, rfl, by decide, by decide, by assumption, .inr (Nat.not_lt.mp ‹¬ v.toNat < 2 ^ 49›)⟩
  · exact ⟨9, rfl, by decide, by decide, hv, .inr (Nat.not_lt.mp ‹¬ v.toNat < 2 ^ 56›)⟩

/-- A form has 1 to 9 bytes. -/
theorem vintSizeOf_bounds (v : Word) : 1 ≤ vintSizeOf v ∧ vintSizeOf v ≤ 9 := by
  obtain ⟨k, h, h1, h9, -⟩ := vintSizeOf_cases v; omega

/-- A longer form has no smaller capacity. -/
theorem cap_mono {a b : Nat} (h : a ≤ b) (hb : b ≤ 9) : cap a ≤ cap b := by
  unfold cap; split_ifs <;> omega

/-! ### Bytes of a value -/

/-- Byte `i` as a number. -/
theorem byteOf_toNat (v : Word) (i : Nat) : (byteOf v i).toNat = v.toNat / 2 ^ (8 * i) % 256 := by
  simp [byteOf, BitVec.extractLsb'_toNat, Nat.shiftRight_eq_div_pow]

/-- There are `e` extra bytes. -/
@[simp] theorem extraBytes_length (v : Word) (e : Nat) : (extraBytes v e).length = e := by
  induction e <;> simp [extraBytes, *]

/-- Extra byte `i` of `e` is byte `e - 1 - i` of the value. -/
theorem extraBytes_getElem? (v : Word) (e i : Nat) (h : i < e) :
    (extraBytes v e)[i]? = some (byteOf v (e - 1 - i)) := by
  induction e generalizing i with
  | zero => omega
  | succ e ih =>
    cases i with
    | zero => simp [extraBytes]
    | succ i => simp only [extraBytes, List.getElem?_cons_succ]; rw [ih i (by omega)]; congr 2; omega

/-- A form has as many bytes as its length says. -/
theorem vintEncode_length (v : Word) : (vintEncode v).length = vintSizeOf v := by
  have h := vintSizeOf_bounds v
  unfold vintEncode
  by_cases h0 : vintSizeOf v - 1 = 0
  · simp [h0]; omega
  · simp [h0]; omega

/-! ### Marker and value bits -/

/-- The mask of the value bits as a number. -/
theorem valueMask_toNat {e : Nat} (h : e ≤ 8) : (valueMask e).toNat = 2 ^ (8 - e) - 1 := by
  interval_cases e <;> decide

/-- The marker has no bit where a value of `8 - e` bits has one. -/
theorem marker_and (e : Nat) (he : e ≤ 8) (t : Byte) (ht : t.toNat < 2 ^ (8 - e)) : marker e &&& t = 0#8 := by
  have : t &&& valueMask e = t := by
    apply BitVec.eq_of_toNat_eq
    rw [BitVec.toNat_and, valueMask_toNat he, Nat.and_two_pow_sub_one_eq_mod, Nat.mod_eq_of_lt ht]
  rw [← this, marker, ← BitVec.and_assoc]
  ext i hi
  simp
  tauto

/-- The value bits of a first byte as a number. -/
theorem firstByteValue_toNat (b : Byte) {e : Nat} (h : e ≤ 8) :
    (firstByteValue b e).toNat = b.toNat % 2 ^ (8 - e) := by
  unfold firstByteValue
  have := b.isLt
  rw [BitVec.toNat_setWidth, BitVec.toNat_and, valueMask_toNat h, Nat.and_two_pow_sub_one_eq_mod]
  apply Nat.mod_eq_of_lt
  calc _ ≤ b.toNat := Nat.mod_le _ _
    _ < _ := by omega

/-- One step of the fold as a number. -/
theorem shiftLeft_or_byte (a : Word) (b : Byte) :
    (a <<< 8) ||| b.setWidth 64 = BitVec.ofNat 64 (a.toNat * 256 + b.toNat) := by
  have hz : (a <<< 8) &&& b.setWidth 64 = 0#64 := by
    ext i hi
    simp only [BitVec.getElem_and, BitVec.getElem_shiftLeft, BitVec.getElem_setWidth, BitVec.getElem_zero]
    by_cases h8 : i < 8
    · simp [h8]
    · have : b.getLsbD i = false := BitVec.getLsbD_of_ge _ _ (by omega)
      simp [this]
  rw [← BitVec.add_eq_or_of_and_eq_zero _ _ hz]
  apply BitVec.eq_of_toNat_eq
  simp [BitVec.toNat_add, BitVec.toNat_shiftLeft, Nat.shiftLeft_eq]

/-- The fold takes its bytes one after the other. -/
@[simp] theorem foldBytes_nil (acc : Word) : foldBytes acc [] = acc := rfl

@[simp] theorem foldBytes_cons (acc : Word) (b : Byte) (t : List Byte) :
    foldBytes acc (b :: t) = foldBytes ((acc <<< 8) ||| b.setWidth 64) t := rfl

theorem foldBytes_append (acc : Word) (t u : List Byte) :
    foldBytes acc (t ++ u) = foldBytes (foldBytes acc t) u := by
  simp [foldBytes]

/-! ### Signed patterns -/

/-- `signed64` is the signed reading of the pattern. -/
theorem signed64_eq_toInt (p : Word) : signed64 p = p.toInt := by
  unfold signed64
  rw [BitVec.toInt_eq_toNat_cond]
  split_ifs <;> first | rfl | omega

/-- An arithmetic shift by 63 spreads the sign. -/
theorem sshiftRight_63 (p : Word) :
    p.sshiftRight 63 = if p.toInt < 0 then BitVec.allOnes 64 else 0#64 := by
  apply BitVec.eq_of_toInt_eq
  rw [BitVec.toInt_sshiftRight, Int.shiftRight_eq_div_pow]
  have h1 := BitVec.toInt_lt (x := p)
  have h2 := BitVec.le_toInt (x := p)
  split_ifs
  · rw [show (BitVec.allOnes 64).toInt = -1 by decide]; norm_num at *; omega
  · rw [show (0#64).toInt = 0 by decide]; norm_num at *; omega

/-- The pattern of an `i64` reads back as it. -/
theorem bits64_toInt (n : Int) (h1 : -2 ^ 63 ≤ n) (h2 : n < 2 ^ 63) : (bits64 n).toInt = n := by
  unfold bits64; rw [BitVec.toInt_ofInt]
  rw [Int.bmod_eq_of_le] <;> norm_num at * <;> omega

end Sys2Proof.Machine

namespace Sys2Proof

/-! ### Command words -/

/-- Bit `i` of a command word is a bit of the operand, or above it a bit of the operation code. -/
theorem commandWord_getLsbD (op : BitVec 4) (v : Word) (i : Nat) :
    (commandWord op v).getLsbD i = if i < 64 then v.getLsbD i else op.getLsbD (i - 64) :=
  BitVec.getLsbD_append

/-- The operation code of a command word built from its fields. -/
theorem opField_commandWord (op : BitVec 4) (v : Word) : opField (commandWord op v) = op := by
  apply BitVec.eq_of_getLsbD_eq; intro i hi
  simp [opField, commandWord_getLsbD, hi]

/-- The operand of a command word built from its fields. -/
theorem operandField_commandWord (op : BitVec 4) (v : Word) : operandField (commandWord op v) = v := by
  apply BitVec.eq_of_getLsbD_eq; intro i hi
  simp [operandField, commandWord_getLsbD, hi]

/-- A command word is its two fields. -/
theorem commandWord_fields (w : CommandWord) : commandWord (opField w) (operandField w) = w := by
  apply BitVec.eq_of_getLsbD_eq; intro i hi
  rw [commandWord_getLsbD]
  by_cases h : i < 64
  · simp [h, operandField]
  · simp [h, opField, show i - 64 < 4 by omega, show 64 + (i - 64) = i by omega]

end Sys2Proof
end

