-- ==== Sys2Proof/Laws/State.lean ====
section
/-! SUPPORT. One lemma per field per update of State, true by rfl. -/

namespace Sys2Proof.Machine.State

variable (s : State)

/-! ### setB0 -/

@[simp] theorem setB0_events (b : Byte) : (s.setB0 b).events = s.events := rfl
@[simp] theorem setB0_response (b : Byte) : (s.setB0 b).response = s.response := rfl
@[simp] theorem setB0_requests (b : Byte) : (s.setB0 b).requests = s.requests := rfl
@[simp] theorem setB0_inProgress (b : Byte) : (s.setB0 b).inProgress = s.inProgress := rfl
@[simp] theorem setB0_src (b : Byte) : (s.setB0 b).src = s.src := rfl
@[simp] theorem setB0_snk (b : Byte) : (s.setB0 b).snk = s.snk := rfl
@[simp] theorem setB0_sb (b : Byte) : (s.setB0 b).sb = s.sb := rfl
@[simp] theorem setB0_b0 (b : Byte) : (s.setB0 b).b0 = b := rfl
@[simp] theorem setB0_extra (b : Byte) : (s.setB0 b).extra = s.extra := rfl
@[simp] theorem setB0_acc (b : Byte) : (s.setB0 b).acc = s.acc := rfl
@[simp] theorem setB0_n (b : Byte) : (s.setB0 b).n = s.n := rfl
@[simp] theorem setB0_draws (b : Byte) : (s.setB0 b).draws = s.draws := rfl

/-! ### setExtra -/

@[simp] theorem setExtra_events (e : Nat) : (s.setExtra e).events = s.events := rfl
@[simp] theorem setExtra_response (e : Nat) : (s.setExtra e).response = s.response := rfl
@[simp] theorem setExtra_requests (e : Nat) : (s.setExtra e).requests = s.requests := rfl
@[simp] theorem setExtra_inProgress (e : Nat) : (s.setExtra e).inProgress = s.inProgress := rfl
@[simp] theorem setExtra_src (e : Nat) : (s.setExtra e).src = s.src := rfl
@[simp] theorem setExtra_snk (e : Nat) : (s.setExtra e).snk = s.snk := rfl
@[simp] theorem setExtra_sb (e : Nat) : (s.setExtra e).sb = s.sb := rfl
@[simp] theorem setExtra_b0 (e : Nat) : (s.setExtra e).b0 = s.b0 := rfl
@[simp] theorem setExtra_extra (e : Nat) : (s.setExtra e).extra = BitVec.ofNat 4 e := rfl
@[simp] theorem setExtra_acc (e : Nat) : (s.setExtra e).acc = s.acc := rfl
@[simp] theorem setExtra_n (e : Nat) : (s.setExtra e).n = s.n := rfl
@[simp] theorem setExtra_draws (e : Nat) : (s.setExtra e).draws = s.draws := rfl

/-! ### setAcc -/

@[simp] theorem setAcc_events (v : Word) : (s.setAcc v).events = s.events := rfl
@[simp] theorem setAcc_response (v : Word) : (s.setAcc v).response = s.response := rfl
@[simp] theorem setAcc_requests (v : Word) : (s.setAcc v).requests = s.requests := rfl
@[simp] theorem setAcc_inProgress (v : Word) : (s.setAcc v).inProgress = s.inProgress := rfl
@[simp] theorem setAcc_src (v : Word) : (s.setAcc v).src = s.src := rfl
@[simp] theorem setAcc_snk (v : Word) : (s.setAcc v).snk = s.snk := rfl
@[simp] theorem setAcc_sb (v : Word) : (s.setAcc v).sb = s.sb := rfl
@[simp] theorem setAcc_b0 (v : Word) : (s.setAcc v).b0 = s.b0 := rfl
@[simp] theorem setAcc_extra (v : Word) : (s.setAcc v).extra = s.extra := rfl
@[simp] theorem setAcc_acc (v : Word) : (s.setAcc v).acc = v := rfl
@[simp] theorem setAcc_n (v : Word) : (s.setAcc v).n = s.n := rfl
@[simp] theorem setAcc_draws (v : Word) : (s.setAcc v).draws = s.draws := rfl

/-! ### setN -/

@[simp] theorem setN_events (k : Nat) : (s.setN k).events = s.events := rfl
@[simp] theorem setN_response (k : Nat) : (s.setN k).response = s.response := rfl
@[simp] theorem setN_requests (k : Nat) : (s.setN k).requests = s.requests := rfl
@[simp] theorem setN_inProgress (k : Nat) : (s.setN k).inProgress = s.inProgress := rfl
@[simp] theorem setN_src (k : Nat) : (s.setN k).src = s.src := rfl
@[simp] theorem setN_snk (k : Nat) : (s.setN k).snk = s.snk := rfl
@[simp] theorem setN_sb (k : Nat) : (s.setN k).sb = s.sb := rfl
@[simp] theorem setN_b0 (k : Nat) : (s.setN k).b0 = s.b0 := rfl
@[simp] theorem setN_extra (k : Nat) : (s.setN k).extra = s.extra := rfl
@[simp] theorem setN_acc (k : Nat) : (s.setN k).acc = s.acc := rfl
@[simp] theorem setN_n (k : Nat) : (s.setN k).n = BitVec.ofNat 4 k := rfl
@[simp] theorem setN_draws (k : Nat) : (s.setN k).draws = s.draws := rfl

/-! ### setScratch -/

@[simp] theorem setScratch_events (b : List Byte) : (s.setScratch b).events = s.events := rfl
@[simp] theorem setScratch_response (b : List Byte) : (s.setScratch b).response = s.response := rfl
@[simp] theorem setScratch_requests (b : List Byte) : (s.setScratch b).requests = s.requests := rfl
@[simp] theorem setScratch_inProgress (b : List Byte) : (s.setScratch b).inProgress = s.inProgress := rfl
@[simp] theorem setScratch_src (b : List Byte) : (s.setScratch b).src = s.src := rfl
@[simp] theorem setScratch_snk (b : List Byte) : (s.setScratch b).snk = s.snk := rfl
@[simp] theorem setScratch_sb (b : List Byte) : (s.setScratch b).sb = b ++ s.sb.drop b.length := rfl
@[simp] theorem setScratch_b0 (b : List Byte) : (s.setScratch b).b0 = s.b0 := rfl
@[simp] theorem setScratch_extra (b : List Byte) : (s.setScratch b).extra = s.extra := rfl
@[simp] theorem setScratch_acc (b : List Byte) : (s.setScratch b).acc = s.acc := rfl
@[simp] theorem setScratch_n (b : List Byte) : (s.setScratch b).n = s.n := rfl
@[simp] theorem setScratch_draws (b : List Byte) : (s.setScratch b).draws = s.draws := rfl

/-! ### setSource -/

@[simp] theorem setSource_events (src : Source) : (s.setSource src).events = s.events := rfl
@[simp] theorem setSource_response (src : Source) : (s.setSource src).response = s.response := rfl
@[simp] theorem setSource_requests (src : Source) : (s.setSource src).requests = s.requests := rfl
@[simp] theorem setSource_inProgress (src : Source) : (s.setSource src).inProgress = s.inProgress := rfl
@[simp] theorem setSource_src (src : Source) : (s.setSource src).src = src := rfl
@[simp] theorem setSource_snk (src : Source) : (s.setSource src).snk = s.snk := rfl
@[simp] theorem setSource_sb (src : Source) : (s.setSource src).sb = s.sb := rfl
@[simp] theorem setSource_b0 (src : Source) : (s.setSource src).b0 = s.b0 := rfl
@[simp] theorem setSource_extra (src : Source) : (s.setSource src).extra = s.extra := rfl
@[simp] theorem setSource_acc (src : Source) : (s.setSource src).acc = s.acc := rfl
@[simp] theorem setSource_n (src : Source) : (s.setSource src).n = s.n := rfl
@[simp] theorem setSource_draws (src : Source) : (s.setSource src).draws = s.draws := rfl

/-! ### setSink -/

@[simp] theorem setSink_events (snk : Sink) : (s.setSink snk).events = s.events := rfl
@[simp] theorem setSink_response (snk : Sink) : (s.setSink snk).response = s.response := rfl
@[simp] theorem setSink_requests (snk : Sink) : (s.setSink snk).requests = s.requests := rfl
@[simp] theorem setSink_inProgress (snk : Sink) : (s.setSink snk).inProgress = s.inProgress := rfl
@[simp] theorem setSink_src (snk : Sink) : (s.setSink snk).src = s.src := rfl
@[simp] theorem setSink_snk (snk : Sink) : (s.setSink snk).snk = snk := rfl
@[simp] theorem setSink_sb (snk : Sink) : (s.setSink snk).sb = s.sb := rfl
@[simp] theorem setSink_b0 (snk : Sink) : (s.setSink snk).b0 = s.b0 := rfl
@[simp] theorem setSink_extra (snk : Sink) : (s.setSink snk).extra = s.extra := rfl
@[simp] theorem setSink_acc (snk : Sink) : (s.setSink snk).acc = s.acc := rfl
@[simp] theorem setSink_n (snk : Sink) : (s.setSink snk).n = s.n := rfl
@[simp] theorem setSink_draws (snk : Sink) : (s.setSink snk).draws = s.draws := rfl

/-! ### addRequest -/

@[simp] theorem addRequest_events (r : StreamRequest) : (s.addRequest r).events = s.events := rfl
@[simp] theorem addRequest_response (r : StreamRequest) : (s.addRequest r).response = s.response := rfl
@[simp] theorem addRequest_requests (r : StreamRequest) : (s.addRequest r).requests = s.requests ++ [r] := rfl
@[simp] theorem addRequest_inProgress (r : StreamRequest) : (s.addRequest r).inProgress = s.inProgress := rfl
@[simp] theorem addRequest_src (r : StreamRequest) : (s.addRequest r).src = s.src := rfl
@[simp] theorem addRequest_snk (r : StreamRequest) : (s.addRequest r).snk = s.snk := rfl
@[simp] theorem addRequest_sb (r : StreamRequest) : (s.addRequest r).sb = s.sb := rfl
@[simp] theorem addRequest_b0 (r : StreamRequest) : (s.addRequest r).b0 = s.b0 := rfl
@[simp] theorem addRequest_extra (r : StreamRequest) : (s.addRequest r).extra = s.extra := rfl
@[simp] theorem addRequest_acc (r : StreamRequest) : (s.addRequest r).acc = s.acc := rfl
@[simp] theorem addRequest_n (r : StreamRequest) : (s.addRequest r).n = s.n := rfl
@[simp] theorem addRequest_draws (r : StreamRequest) : (s.addRequest r).draws = s.draws := rfl

/-! ### respond -/

@[simp] theorem respond_events (r : Response) : (s.respond r).events = s.events := rfl
@[simp] theorem respond_response (r : Response) : (s.respond r).response = some r := rfl
@[simp] theorem respond_requests (r : Response) : (s.respond r).requests = s.requests := rfl
@[simp] theorem respond_inProgress (r : Response) : (s.respond r).inProgress = s.inProgress := rfl
@[simp] theorem respond_src (r : Response) : (s.respond r).src = s.src := rfl
@[simp] theorem respond_snk (r : Response) : (s.respond r).snk = s.snk := rfl
@[simp] theorem respond_sb (r : Response) : (s.respond r).sb = s.sb := rfl
@[simp] theorem respond_b0 (r : Response) : (s.respond r).b0 = s.b0 := rfl
@[simp] theorem respond_extra (r : Response) : (s.respond r).extra = s.extra := rfl
@[simp] theorem respond_acc (r : Response) : (s.respond r).acc = s.acc := rfl
@[simp] theorem respond_n (r : Response) : (s.respond r).n = s.n := rfl
@[simp] theorem respond_draws (r : Response) : (s.respond r).draws = s.draws := rfl

/-! ### suspend -/

@[simp] theorem suspend_events (op : StreamOp) : (s.suspend op).events = s.events := rfl
@[simp] theorem suspend_response (op : StreamOp) : (s.suspend op).response = none := rfl
@[simp] theorem suspend_requests (op : StreamOp) : (s.suspend op).requests = s.requests := rfl
@[simp] theorem suspend_inProgress (op : StreamOp) : (s.suspend op).inProgress = some op := rfl
@[simp] theorem suspend_src (op : StreamOp) : (s.suspend op).src = s.src := rfl
@[simp] theorem suspend_snk (op : StreamOp) : (s.suspend op).snk = s.snk := rfl
@[simp] theorem suspend_sb (op : StreamOp) : (s.suspend op).sb = s.sb := rfl
@[simp] theorem suspend_b0 (op : StreamOp) : (s.suspend op).b0 = s.b0 := rfl
@[simp] theorem suspend_extra (op : StreamOp) : (s.suspend op).extra = s.extra := rfl
@[simp] theorem suspend_acc (op : StreamOp) : (s.suspend op).acc = s.acc := rfl
@[simp] theorem suspend_n (op : StreamOp) : (s.suspend op).n = s.n := rfl
@[simp] theorem suspend_draws (op : StreamOp) : (s.suspend op).draws = s.draws := rfl

/-! ### forgetDecoder -/

@[simp] theorem forgetDecoder_events : (s.forgetDecoder).events = s.events := rfl
@[simp] theorem forgetDecoder_response : (s.forgetDecoder).response = s.response := rfl
@[simp] theorem forgetDecoder_requests : (s.forgetDecoder).requests = s.requests := rfl
@[simp] theorem forgetDecoder_inProgress : (s.forgetDecoder).inProgress = s.inProgress := rfl
@[simp] theorem forgetDecoder_src : (s.forgetDecoder).src = s.src := rfl
@[simp] theorem forgetDecoder_snk : (s.forgetDecoder).snk = s.snk := rfl
@[simp] theorem forgetDecoder_sb : (s.forgetDecoder).sb = s.sb := rfl
@[simp] theorem forgetDecoder_b0 : (s.forgetDecoder).b0 = Config.idleB0 s.draws := rfl
@[simp] theorem forgetDecoder_extra : (s.forgetDecoder).extra = Config.idleExtra s.draws := rfl
@[simp] theorem forgetDecoder_acc : (s.forgetDecoder).acc = Config.idleAcc s.draws := rfl
@[simp] theorem forgetDecoder_n : (s.forgetDecoder).n = s.n := rfl
@[simp] theorem forgetDecoder_draws : (s.forgetDecoder).draws = s.draws := rfl

/-! ### forgetEncoder -/

@[simp] theorem forgetEncoder_events : (s.forgetEncoder).events = s.events := rfl
@[simp] theorem forgetEncoder_response : (s.forgetEncoder).response = s.response := rfl
@[simp] theorem forgetEncoder_requests : (s.forgetEncoder).requests = s.requests := rfl
@[simp] theorem forgetEncoder_inProgress : (s.forgetEncoder).inProgress = s.inProgress := rfl
@[simp] theorem forgetEncoder_src : (s.forgetEncoder).src = s.src := rfl
@[simp] theorem forgetEncoder_snk : (s.forgetEncoder).snk = s.snk := rfl
@[simp] theorem forgetEncoder_sb : (s.forgetEncoder).sb = s.sb := rfl
@[simp] theorem forgetEncoder_b0 : (s.forgetEncoder).b0 = s.b0 := rfl
@[simp] theorem forgetEncoder_extra : (s.forgetEncoder).extra = s.extra := rfl
@[simp] theorem forgetEncoder_acc : (s.forgetEncoder).acc = s.acc := rfl
@[simp] theorem forgetEncoder_n : (s.forgetEncoder).n = Config.idleN s.draws := rfl
@[simp] theorem forgetEncoder_draws : (s.forgetEncoder).draws = s.draws := rfl

/-! ### beginStep -/

@[simp] theorem beginStep_events : (s.beginStep).events = s.events := rfl
@[simp] theorem beginStep_response : (s.beginStep).response = none := rfl
@[simp] theorem beginStep_requests : (s.beginStep).requests = [] := rfl
@[simp] theorem beginStep_inProgress : (s.beginStep).inProgress = s.inProgress := rfl
@[simp] theorem beginStep_src : (s.beginStep).src = s.src := rfl
@[simp] theorem beginStep_snk : (s.beginStep).snk = s.snk := rfl
@[simp] theorem beginStep_sb : (s.beginStep).sb = s.sb := rfl
@[simp] theorem beginStep_b0 : (s.beginStep).b0 = s.b0 := rfl
@[simp] theorem beginStep_extra : (s.beginStep).extra = s.extra := rfl
@[simp] theorem beginStep_acc : (s.beginStep).acc = s.acc := rfl
@[simp] theorem beginStep_n : (s.beginStep).n = s.n := rfl
@[simp] theorem beginStep_draws : (s.beginStep).draws = s.draws + 1 := rfl

/-! ### takeEvent -/

@[simp] theorem takeEvent_events (rest : List HostEvent) : (s.takeEvent rest).events = rest := rfl
@[simp] theorem takeEvent_response (rest : List HostEvent) : (s.takeEvent rest).response = none := rfl
@[simp] theorem takeEvent_requests (rest : List HostEvent) : (s.takeEvent rest).requests = [] := rfl
@[simp] theorem takeEvent_inProgress (rest : List HostEvent) : (s.takeEvent rest).inProgress = s.inProgress := rfl
@[simp] theorem takeEvent_src (rest : List HostEvent) : (s.takeEvent rest).src = s.src := rfl
@[simp] theorem takeEvent_snk (rest : List HostEvent) : (s.takeEvent rest).snk = s.snk := rfl
@[simp] theorem takeEvent_sb (rest : List HostEvent) : (s.takeEvent rest).sb = s.sb := rfl
@[simp] theorem takeEvent_b0 (rest : List HostEvent) : (s.takeEvent rest).b0 = s.b0 := rfl
@[simp] theorem takeEvent_extra (rest : List HostEvent) : (s.takeEvent rest).extra = s.extra := rfl
@[simp] theorem takeEvent_acc (rest : List HostEvent) : (s.takeEvent rest).acc = s.acc := rfl
@[simp] theorem takeEvent_n (rest : List HostEvent) : (s.takeEvent rest).n = s.n := rfl
@[simp] theorem takeEvent_draws (rest : List HostEvent) : (s.takeEvent rest).draws = s.draws + 1 := rfl

/-! ### resetUnit -/

@[simp] theorem resetUnit_events : (s.resetUnit).events = s.events := rfl
@[simp] theorem resetUnit_response : (s.resetUnit).response = none := rfl
@[simp] theorem resetUnit_requests : (s.resetUnit).requests = s.requests := rfl
@[simp] theorem resetUnit_inProgress : (s.resetUnit).inProgress = none := rfl
@[simp] theorem resetUnit_src : (s.resetUnit).src = s.src := rfl
@[simp] theorem resetUnit_snk : (s.resetUnit).snk = s.snk := rfl
@[simp] theorem resetUnit_sb : (s.resetUnit).sb = (List.range Config.scratchBytes).map (Config.scratchAfterReset s.draws) := rfl
@[simp] theorem resetUnit_b0 : (s.resetUnit).b0 = Config.idleB0 s.draws := rfl
@[simp] theorem resetUnit_extra : (s.resetUnit).extra = Config.idleExtra s.draws := rfl
@[simp] theorem resetUnit_acc : (s.resetUnit).acc = Config.idleAcc s.draws := rfl
@[simp] theorem resetUnit_n : (s.resetUnit).n = Config.idleN s.draws := rfl
@[simp] theorem resetUnit_draws : (s.resetUnit).draws = s.draws := rfl

end Sys2Proof.Machine.State
end

