-- ==== Sys2Proof/Laws/Ops.lean ====
section
/-! SUPPORT. One lemma per shared operation, saying everything it can do: the stream primitives, the stages, the ends of operations,
and `exec`, which always answers a next state. -/

namespace Sys2Proof.Machine

/-! ### Stages -/

@[simp] theorem Stage.andThen_done {α β : Type} (v : α) (s : State) (f : α → State → Stage β) :
    (Stage.done v s).andThen f = f v s := rfl

@[simp] theorem Stage.andThen_raised {α β : Type} (c : Condition) (s : State) (f : α → State → Stage β) :
    (Stage.raised c s).andThen f = .raised c s := rfl

@[simp] theorem Stage.andThen_waiting {α β : Type} (s : State) (f : α → State → Stage β) :
    (Stage.waiting s).andThen f = .waiting s := rfl

@[simp] theorem finish_done (op : StreamOp) (v : Word) (s : State) :
    finish op (.done v s) = .next ((s.retire op).respond (.ok v)) := rfl

@[simp] theorem finish_raised (op : StreamOp) (c : Condition) (s : State) :
    finish op (.raised c s) = .next ((s.retire op).respond (.fail c)) := rfl

@[simp] theorem finish_waiting (op : StreamOp) (s : State) :
    finish op (.waiting s) = .next (s.suspend op) := rfl

/-- An operation that makes stream requests always answers a next state. -/
theorem finish_next (op : StreamOp) (st : Stage Word) : ∃ t, finish op st = .next t := by
  cases st <;> exact ⟨_, rfl⟩

/-! ### The stream primitives -/

/-- A read the source serves. -/
theorem memRead_served {k : Nat} {s : State} (h : s.src.serves k) :
    memRead k s = .done (s.src.rem.take k) ((s.addRequest (.read k)).setSource (s.src.take k)) := by
  simp [memRead, h.1, h.2]

/-- A read the source answers with a condition. -/
theorem memRead_fails {k : Nat} {c : Condition} {s : State} (h : s.src.fails k c) :
    memRead k s = .raised c ((s.addRequest (.read k)).setSource (s.src.lose s.draws)) := by
  rcases h with ⟨rfl, h, hk, he⟩ | ⟨token, rfl, h⟩
  · simp [memRead, h, Nat.not_le.mpr hk, he]
  · simp [memRead, h]

/-- A read the source never answers. -/
theorem memRead_unanswered {k : Nat} {s : State} (h : s.src.unanswered k) :
    memRead k s = .waiting ((s.addRequest (.read k)).setSource (s.src.lose s.draws)) := by
  rcases h with h | ⟨h, hk, he⟩
  · simp [memRead, h]
  · simp [memRead, h, Nat.not_le.mpr hk, he]

/-- A source serves a read, or answers it with a condition, or never answers it. -/
theorem Source.answer_cases (k : Nat) (src : Source) : src.serves k ∨ (∃ c, src.fails k c) ∨ src.unanswered k := by
  cases h : nextAnswer src.plan with
  | comply =>
    by_cases hk : k ≤ src.rem.length
    · exact .inl ⟨h, hk⟩
    · cases he : src.ended with
      | true => exact .inr (.inl ⟨_, .inl ⟨rfl, h, Nat.not_le.mp hk, he⟩⟩)
      | false => exact .inr (.inr (.inr ⟨h, Nat.not_le.mp hk, he⟩))
  | ioFault token => exact .inr (.inl ⟨_, .inr ⟨token, rfl, h⟩⟩)
  | silent => exact .inr (.inr (.inl h))

/-- Everything a read can do. -/
theorem memRead_cases (k : Nat) (s : State) :
    (s.src.serves k ∧
      memRead k s = .done (s.src.rem.take k) ((s.addRequest (.read k)).setSource (s.src.take k)))
    ∨ (∃ c, s.src.fails k c ∧
      memRead k s = .raised c ((s.addRequest (.read k)).setSource (s.src.lose s.draws)))
    ∨ (s.src.unanswered k ∧
      memRead k s = .waiting ((s.addRequest (.read k)).setSource (s.src.lose s.draws))) := by
  rcases s.src.answer_cases k with h | ⟨c, h⟩ | h
  · exact .inl ⟨h, memRead_served h⟩
  · exact .inr (.inl ⟨c, h, memRead_fails h⟩)
  · exact .inr (.inr ⟨h, memRead_unanswered h⟩)

/-- A write the sink serves. -/
theorem memWrite_served {bytes : List Byte} {s : State} (h : nextAnswer s.snk.plan = .comply) :
    memWrite bytes s = .done () ((s.addRequest (.write bytes)).setSink (s.snk.put bytes)) := by
  simp [memWrite, h]

/-- A write the sink answers with a fault. -/
theorem memWrite_fault {bytes : List Byte} {s : State} {token : IoToken} (h : nextAnswer s.snk.plan = .ioFault token) :
    memWrite bytes s =
      .raised (.ioFailure token) ((s.addRequest (.write bytes)).setSink (s.snk.putPart s.draws bytes)) := by
  simp [memWrite, h]

/-- A write the sink never answers. -/
theorem memWrite_silent {bytes : List Byte} {s : State} (h : nextAnswer s.snk.plan = .silent) :
    memWrite bytes s = .waiting ((s.addRequest (.write bytes)).setSink (s.snk.putPart s.draws bytes)) := by
  simp [memWrite, h]

/-- Everything a write can do. -/
theorem memWrite_cases (bytes : List Byte) (s : State) :
    (nextAnswer s.snk.plan = .comply ∧
      memWrite bytes s = .done () ((s.addRequest (.write bytes)).setSink (s.snk.put bytes)))
    ∨ (∃ token, nextAnswer s.snk.plan = .ioFault token ∧ memWrite bytes s =
      .raised (.ioFailure token) ((s.addRequest (.write bytes)).setSink (s.snk.putPart s.draws bytes)))
    ∨ (nextAnswer s.snk.plan = .silent ∧
      memWrite bytes s = .waiting ((s.addRequest (.write bytes)).setSink (s.snk.putPart s.draws bytes))) := by
  cases h : nextAnswer s.snk.plan with
  | comply => exact .inl ⟨rfl, memWrite_served h⟩
  | ioFault token => exact .inr (.inl ⟨token, rfl, memWrite_fault h⟩)
  | silent => exact .inr (.inr ⟨rfl, memWrite_silent h⟩)

/-! ### Decoding stages -/

/-- The working values of a decode once the first byte is known. -/
def State.loadFirstByte (e : Nat) (b : Byte) (s : State) : State :=
  ((s.setB0 b).setExtra e).setAcc (firstByteValue b e)

/-- The register `EXTRA` holds a count up to 8 exactly. -/
theorem extra_toNat {e : Nat} (h : e ≤ 8) : (BitVec.ofNat 4 e).toNat = e := by
  simp [BitVec.toNat_ofNat]; omega

/-- A form of one byte is done at once. -/
theorem afterFirstByte_zero (b : Byte) (s : State) :
    afterFirstByte 0 b s = .done (firstByteValue b 0) (s.loadFirstByte 0 b) := by
  simp [afterFirstByte, State.loadFirstByte]

/-- A longer form makes one request for its extra bytes. -/
theorem afterFirstByte_pos {e : Nat} (h1 : 1 ≤ e) (h8 : e ≤ 8) (b : Byte) (s : State) :
    afterFirstByte e b s =
      (memRead e (s.loadFirstByte e b)).andThen fun t u =>
        .done (foldBytes u.acc t) (u.setAcc (foldBytes u.acc t)) := by
  have hne : ¬ BitVec.ofNat 4 e = 0#4 := fun h => by
    have := congrArg BitVec.toNat h
    rw [extra_toNat h8] at this
    simp at this
    omega
  unfold afterFirstByte
  simp only [State.setAcc_extra, State.setExtra_extra, hne, ite_false, extra_toNat h8]
  rfl

/-! ### Encoding stages -/

/-- The working value and the scratch buffer of an encode, as they stand when the sink is asked. -/
def State.loadForm (v : Word) (s : State) : State :=
  if 2 ≤ (s.setN (vintSizeOf v)).n.toNat then (s.setN (vintSizeOf v)).setScratch (vintEncode v)
  else s.setN (vintSizeOf v)

/-- An encode is one write of the form. -/
theorem encodeForm_eq (v : Word) (s : State) :
    encodeForm v s = (memWrite (vintEncode v) (s.loadForm v)).andThen fun _ u => .done (u.n.setWidth 64) u := rfl

/-- A first byte always answers a next state. -/
theorem runFirstByte_next (e : Nat) (b : Byte) (s : State) : ∃ t, runFirstByte e b s = .next t :=
  finish_next .decode _

/-! ### Every instruction answers a next state -/

/-- No instruction faults and none is refused: conditions are responses (R186, R197). -/
theorem exec_next (i : Instr) (s : State) : ∃ t, exec i s = .next t := by
  cases i with
  | marker x =>
    simp only [exec, execMarker, raise, respondOk]
    split <;> exact ⟨_, rfl⟩
  | encode v => exact finish_next _ _
  | encodes v => exact finish_next _ _
  | decode o => exact finish_next _ _
  | decodes o => exact finish_next _ _
  | wireL1 h => exact runFirstByte_next 0 _ s
  | wireL2 h => exact runFirstByte_next 1 _ s
  | wireL3 h => exact runFirstByte_next 2 _ s
  | wireL4 h => exact runFirstByte_next 3 _ s
  | wireL5 h => exact runFirstByte_next 4 _ s
  | wireL6 h => exact runFirstByte_next 5 _ s
  | wireL7 h => exact runFirstByte_next 6 _ s
  | wireL8 => exact runFirstByte_next 7 _ s
  | wireL9 => exact runFirstByte_next 8 _ s
  | sizeof v => exact ⟨_, rfl⟩
  | sizeofs v => exact ⟨_, rfl⟩
  | zzenc n => exact ⟨_, rfl⟩
  | zzdec u => exact ⟨_, rfl⟩
  | reserved9 o => exact ⟨_, rfl⟩
  | reservedA o => exact ⟨_, rfl⟩
  | reservedB o => exact ⟨_, rfl⟩
  | reservedC o => exact ⟨_, rfl⟩
  | reservedD o => exact ⟨_, rfl⟩
  | reservedE o => exact ⟨_, rfl⟩
  | reservedF o => exact ⟨_, rfl⟩

/-- What the host's action does is a next state too. -/
theorem runEvent_next (e : HostEvent) (s : State) : ∃ t, runEvent e s = .next t := by
  cases e with
  | command w => exact exec_next _ _
  | reset => exact ⟨_, rfl⟩
  | attachSource src => exact ⟨_, rfl⟩
  | attachSink snk => exact ⟨_, rfl⟩

end Sys2Proof.Machine
end

