-- ==== Sys2Proof/Laws/Outcomes.lean ====
section
/-! SUPPORT. Everything an encode, a decode and a first byte can do, each said once. -/

namespace Sys2Proof.Machine

/-! ### Encodes -/

/-- The length of a form fits in the register `N`. -/
theorem setN_toNat (v : Word) (s : State) : (s.setN (vintSizeOf v)).n.toNat = vintSizeOf v := by
  have := (vintSizeOf_bounds v).2
  simp [BitVec.toNat_ofNat]; omega

/-- `N` zero-extended is the count of bytes. -/
theorem setWidth_size (v : Word) : (BitVec.ofNat 4 (vintSizeOf v)).setWidth 64 = BitVec.ofNat 64 (vintSizeOf v) := by
  obtain ⟨a, b⟩ := vintSizeOf_bounds v
  generalize vintSizeOf v = k at *
  interval_cases k <;> rfl

/-- The working value and the scratch buffer of an encode, field by field. -/
theorem loadForm_eq (v : Word) (s : State) : s.loadForm v = { s with
    n := BitVec.ofNat 4 (vintSizeOf v)
    sb := if 2 ≤ vintSizeOf v then vintEncode v ++ s.sb.drop (vintSizeOf v) else s.sb } := by
  unfold State.loadForm
  rw [setN_toNat]
  split_ifs
  · simp [State.setScratch, State.setN, vintEncode_length]
  · rfl

/-- What an encode does, as its write is served, answered with a fault, or not answered. -/
structure EncodeOutcome (op : StreamOp) (v : Word) (s t : State) : Prop where
  requests : t.requests = s.requests ++ [.write (vintEncode v)]
  src : t.src = s.src
  b0 : t.b0 = s.b0
  extra : t.extra = s.extra
  acc : t.acc = s.acc
  events : t.events = s.events
  draws : t.draws = s.draws
  plan : t.snk.plan = s.snk.plan.tail
  sb : t.sb = if 2 ≤ vintSizeOf v then vintEncode v ++ s.sb.drop (vintSizeOf v) else s.sb
  ends :
    (nextAnswer s.snk.plan = .comply ∧ t.response = some (.ok (BitVec.ofNat 64 (vintSizeOf v)))
      ∧ t.snk.out = s.snk.out ++ vintEncode v ∧ t.inProgress = s.inProgress)
    ∨ (∃ token, nextAnswer s.snk.plan = .ioFault token ∧ t.response = some (.fail (.ioFailure token))
      ∧ t.snk.out = s.snk.out ++ (vintEncode v).take (Config.snkAfterFail s.draws) ∧ t.inProgress = s.inProgress)
    ∨ (nextAnswer s.snk.plan = .silent ∧ t.response = none ∧ t.n = BitVec.ofNat 4 (vintSizeOf v)
      ∧ t.snk.out = s.snk.out ++ (vintEncode v).take (Config.snkAfterFail s.draws) ∧ t.inProgress = some op)

/-- Everything an encode can do. -/
theorem encode_outcome (op : StreamOp) (hop : op = .encode ∨ op = .encodes) (v : Word) (s : State) :
    ∃ t, finish op (encodeForm v s) = .next t ∧ EncodeOutcome op v s t := by
  rw [encodeForm_eq, loadForm_eq]
  rcases memWrite_cases (vintEncode v) { s with
      n := BitVec.ofNat 4 (vintSizeOf v)
      sb := if 2 ≤ vintSizeOf v then vintEncode v ++ s.sb.drop (vintSizeOf v) else s.sb } with
    ⟨h, e⟩ | ⟨token, h, e⟩ | ⟨h, e⟩ <;> rw [e] <;> refine ⟨_, rfl, ?_⟩ <;> rcases hop with rfl | rfl <;>
    refine ⟨rfl, rfl, rfl, rfl, rfl, rfl, rfl, rfl, rfl, ?_⟩
  all_goals first
    | exact .inl ⟨h, congrArg (fun x => some (Response.ok x)) (setWidth_size v), rfl, rfl⟩
    | exact .inr (.inl ⟨token, h, rfl, rfl, rfl⟩)
    | exact .inr (.inr ⟨h, rfl, rfl, rfl, rfl⟩)

/-! ### Decodes -/

/-- A decode whose first read is served goes on from the byte it read. -/
theorem decodeForm_cons {b : Byte} {t : List Byte} {s : State} (hr : s.src.rem = b :: t)
    (h : nextAnswer s.src.plan = .comply) :
    decodeForm s = afterFirstByte (clo8 b) b
      { s with requests := s.requests ++ [.read 1], src := ⟨t, s.src.ended, s.src.plan.tail⟩ } := by
  unfold decodeForm
  rw [memRead_served ⟨h, by simp [hr]⟩, Stage.andThen_done, hr]
  simp only [List.take_succ_cons, List.take_zero, List.headD_cons]
  congr 1
  simp [State.setSource, State.addRequest, Source.take, hr]

/-- Everything a first byte with `e` leading 1-bits can do. -/
theorem afterFirstByte_cases {e : Nat} (he : e ≤ 8) (b : Byte) (s : State) :
    (e ≤ s.src.rem.length ∧ (1 ≤ e → s.src.serves e)
      ∧ afterFirstByte e b s = .done (foldBytes (firstByteValue b e) (s.src.rem.take e)) { s with
        requests := s.requests ++ if e = 0 then [] else [.read e]
        src := if e = 0 then s.src else s.src.take e
        b0 := b, extra := BitVec.ofNat 4 e, acc := foldBytes (firstByteValue b e) (s.src.rem.take e) })
    ∨ (1 ≤ e ∧ ∃ c, s.src.fails e c
      ∧ afterFirstByte e b s = .raised c { s with
        requests := s.requests ++ [.read e], src := s.src.lose s.draws
        b0 := b, extra := BitVec.ofNat 4 e, acc := firstByteValue b e })
    ∨ (1 ≤ e ∧ s.src.unanswered e
      ∧ afterFirstByte e b s = .waiting { s with
        requests := s.requests ++ [.read e], src := s.src.lose s.draws
        b0 := b, extra := BitVec.ofNat 4 e, acc := firstByteValue b e }) := by
  by_cases h0 : e = 0
  · subst h0
    left
    refine ⟨Nat.zero_le _, by omega, ?_⟩
    rw [afterFirstByte_zero]
    simp [State.loadFirstByte, State.setAcc, State.setB0, State.setExtra]
  · rw [afterFirstByte_pos (by omega) he]
    simp only [if_neg h0]
    rcases memRead_cases e (s.loadFirstByte e b) with ⟨hs, h⟩ | ⟨c, hc, h⟩ | ⟨hw, h⟩ <;> rw [h]
    · exact .inl ⟨hs.2, fun _ => hs, rfl⟩
    · exact .inr (.inl ⟨by omega, c, hc, rfl⟩)
    · exact .inr (.inr ⟨by omega, hw, rfl⟩)

/-- What DECODE and DECODES do: answer the value (with `post` applied), fail, or wait. -/
structure DecodeOutcome (op : StreamOp) (post : Word → Word) (s t : State) : Prop where
  snk : t.snk = s.snk
  sb : t.sb = s.sb
  n : t.n = s.n
  events : t.events = s.events
  draws : t.draws = s.draws
  ended : t.src.ended = s.src.ended
  ends :
    (∃ b u, s.src.rem = b :: u ∧ clo8 b ≤ u.length
      ∧ t.response = some (.ok (post (foldBytes (firstByteValue b (clo8 b)) (u.take (clo8 b)))))
      ∧ t.src.rem = u.drop (clo8 b)
      ∧ t.requests = s.requests ++ (if clo8 b = 0 then [.read 1] else [.read 1, .read (clo8 b)])
      ∧ t.inProgress = s.inProgress ∧ nextAnswer s.src.plan = .comply
      ∧ (1 ≤ clo8 b → nextAnswer s.src.plan.tail = .comply))
    ∨ (∃ c, t.response = some (.fail c) ∧ t.inProgress = s.inProgress
      ∧ ((s.src.fails 1 c ∧ t.requests = s.requests ++ [.read 1]
          ∧ t.src.rem = s.src.rem.drop (Config.srcAfterFail s.draws))
        ∨ ∃ b u, s.src.rem = b :: u ∧ nextAnswer s.src.plan = .comply ∧ 1 ≤ clo8 b
          ∧ (s.src.take 1).fails (clo8 b) c ∧ t.requests = s.requests ++ [.read 1, .read (clo8 b)]
          ∧ t.src.rem = u.drop (Config.srcAfterFail s.draws)))
    ∨ (t.response = none ∧ t.inProgress = some op
      ∧ ((s.src.unanswered 1 ∧ t.requests = s.requests ++ [.read 1]
          ∧ t.src.rem = s.src.rem.drop (Config.srcAfterFail s.draws))
        ∨ ∃ b u, s.src.rem = b :: u ∧ nextAnswer s.src.plan = .comply ∧ 1 ≤ clo8 b
          ∧ (s.src.take 1).unanswered (clo8 b) ∧ t.requests = s.requests ++ [.read 1, .read (clo8 b)]
          ∧ t.b0 = b ∧ t.extra = BitVec.ofNat 4 (clo8 b) ∧ t.src.rem = u.drop (Config.srcAfterFail s.draws)))

/-- The source once the first byte is taken. -/
theorem Source.take_one {src : Source} {b : Byte} {u : List Byte} (h : src.rem = b :: u) :
    src.take 1 = ⟨u, src.ended, src.plan.tail⟩ := by
  simp [Source.take, h]

/-- Everything DECODE and DECODES can do. -/
theorem decode_outcome (op : StreamOp) (hop : op = .decode ∨ op = .decodes) (post : Word → Word) (s : State) :
    ∃ t, finish op ((decodeForm s).andThen fun u s => .done (post u) s) = .next t ∧ DecodeOutcome op post s t := by
  rcases memRead_cases 1 s with ⟨⟨hc, hk⟩, e⟩ | ⟨c, hf, e⟩ | ⟨hw, e⟩
  · obtain ⟨b, u, hr⟩ : ∃ b u, s.src.rem = b :: u := by
      cases h : s.src.rem with
      | nil => rw [h] at hk; simp at hk
      | cons b u => exact ⟨b, u, rfl⟩
    have h1 := Source.take_one hr
    rw [decodeForm_cons hr hc]
    rcases afterFirstByte_cases (clo8_le b) b
        { s with requests := s.requests ++ [.read 1], src := ⟨u, s.src.ended, s.src.plan.tail⟩ } with
      ⟨hl, hs, h⟩ | ⟨he, c, hf, h⟩ | ⟨he, hw, h⟩ <;> rw [h] <;> refine ⟨_, rfl, ?_⟩ <;>
      rcases hop with rfl | rfl
    all_goals first
      | exact ⟨rfl, rfl, rfl, rfl, rfl, rfl, .inr (.inl
          ⟨c, rfl, rfl, .inr ⟨b, u, hr, hc, he, by rw [h1]; exact hf, List.append_assoc .., rfl⟩⟩)⟩
      | exact ⟨rfl, rfl, rfl, rfl, rfl, rfl, .inr (.inr
          ⟨rfl, rfl, .inr ⟨b, u, hr, hc, he, by rw [h1]; exact hw, List.append_assoc .., rfl, rfl, rfl⟩⟩)⟩
      | exact ⟨rfl, rfl, rfl, rfl, rfl, by simp only [State.retire]; split <;> rfl,
          .inl ⟨b, u, hr, hl, rfl, by by_cases h0 : clo8 b = 0 <;> simp [h0, State.retire, State.respond,
            State.forgetDecoder, Source.take],
            by by_cases h0 : clo8 b = 0 <;> simp [h0, State.retire, State.respond, State.forgetDecoder],
            rfl, hc, fun h => (hs h).1⟩⟩
  · unfold decodeForm; rw [e]
    refine ⟨_, rfl, ?_⟩
    rcases hop with rfl | rfl <;>
      exact ⟨rfl, rfl, rfl, rfl, rfl, rfl, .inr (.inl ⟨c, rfl, rfl, .inl ⟨hf, rfl, rfl⟩⟩)⟩
  · unfold decodeForm; rw [e]
    exact ⟨_, rfl, rfl, rfl, rfl, rfl, rfl, rfl, .inr (.inr ⟨rfl, rfl, .inl ⟨hw, rfl, rfl⟩⟩)⟩

/-- DECODE is a decode with nothing after it. -/
theorem andThen_done_self (st : Stage Word) : (st.andThen fun u s => .done (id u) s) = st := by
  cases st <;> rfl

end Sys2Proof.Machine
end

