-- ==== Sys2Proof/Laws/PerInstr.lean ====
section
/-! SUPPORT. For every instruction: its word agrees with its row of spec/opcode_table.json. -/

namespace Sys2Proof.Laws.TableRow

open Sys2Proof

/-- The width, the mask and the match of an instruction's row in spec/opcode_table.json. -/
def row : Instr → Nat × Nat × Nat
  | .sizeof _ => (68, 0xF0000000000000000, 0x00000000000000000)
  | .encode _ => (68, 0xF0000000000000000, 0x10000000000000000)
  | .decode _ => (68, 0xF0000000000000000, 0x20000000000000000)
  | .marker _ => (68, 0xF0000000000000000, 0x30000000000000000)
  | .zzenc _ => (68, 0xF0000000000000000, 0x40000000000000000)
  | .zzdec _ => (68, 0xF0000000000000000, 0x50000000000000000)
  | .encodes _ => (68, 0xF0000000000000000, 0x60000000000000000)
  | .decodes _ => (68, 0xF0000000000000000, 0x70000000000000000)
  | .sizeofs _ => (68, 0xF0000000000000000, 0x80000000000000000)
  | .reserved9 _ => (68, 0xF0000000000000000, 0x90000000000000000)
  | .reservedA _ => (68, 0xF0000000000000000, 0xA0000000000000000)
  | .reservedB _ => (68, 0xF0000000000000000, 0xB0000000000000000)
  | .reservedC _ => (68, 0xF0000000000000000, 0xC0000000000000000)
  | .reservedD _ => (68, 0xF0000000000000000, 0xD0000000000000000)
  | .reservedE _ => (68, 0xF0000000000000000, 0xE0000000000000000)
  | .reservedF _ => (68, 0xF0000000000000000, 0xF0000000000000000)
  | .wireL1 _ => (8, 0x80, 0x00)
  | .wireL2 _ => (8, 0xC0, 0x80)
  | .wireL3 _ => (8, 0xE0, 0xC0)
  | .wireL4 _ => (8, 0xF0, 0xE0)
  | .wireL5 _ => (8, 0xF8, 0xF0)
  | .wireL6 _ => (8, 0xFC, 0xF8)
  | .wireL7 _ => (8, 0xFE, 0xFC)
  | .wireL8 => (8, 0xFF, 0xFE)
  | .wireL9 => (8, 0xFF, 0xFF)

/-- A word has the row's width and agrees with the row's match under its mask. -/
def Agrees : Encoded → Nat × Nat × Nat → Prop
  | .command w, (width, mask, pattern) => width = 68 ∧ w &&& BitVec.ofNat 68 mask = BitVec.ofNat 68 pattern
  | .firstByte b, (width, mask, pattern) => width = 8 ∧ b &&& BitVec.ofNat 8 mask = BitVec.ofNat 8 pattern

/-- The word of `i` agrees with the row of `i`. -/
def Statement (i : Instr) : Prop := Agrees (encode i) (row i)

/-- A command word keeps its operation code under the mask of the code. -/
theorem commandWord_and_mask (op : BitVec 4) (v : Word) :
    commandWord op v &&& BitVec.ofNat 68 0xF0000000000000000 = commandWord op 0#64 := by
  have hmask : BitVec.ofNat 68 0xF0000000000000000 = commandWord 0xF#4 0#64 := by decide
  rw [hmask]
  apply BitVec.eq_of_getLsbD_eq; intro i hi
  rw [BitVec.getLsbD_and, commandWord_getLsbD, commandWord_getLsbD, commandWord_getLsbD]
  by_cases h : i < 64
  · simp [h]
  · have h4 : i - 64 < 4 := by omega
    generalize i - 64 = j at *
    interval_cases j <;> simp [h]

theorem sizeof (v : Word) : Statement (.sizeof v) := ⟨rfl, (commandWord_and_mask _ v).trans (by decide)⟩

theorem encode (v : Word) : Statement (.encode v) := ⟨rfl, (commandWord_and_mask _ v).trans (by decide)⟩

theorem decode (v : Word) : Statement (.decode v) := ⟨rfl, (commandWord_and_mask _ v).trans (by decide)⟩

theorem marker (v : Word) : Statement (.marker v) := ⟨rfl, (commandWord_and_mask _ v).trans (by decide)⟩

theorem zzenc (v : Word) : Statement (.zzenc v) := ⟨rfl, (commandWord_and_mask _ v).trans (by decide)⟩

theorem zzdec (v : Word) : Statement (.zzdec v) := ⟨rfl, (commandWord_and_mask _ v).trans (by decide)⟩

theorem encodes (v : Word) : Statement (.encodes v) := ⟨rfl, (commandWord_and_mask _ v).trans (by decide)⟩

theorem decodes (v : Word) : Statement (.decodes v) := ⟨rfl, (commandWord_and_mask _ v).trans (by decide)⟩

theorem sizeofs (v : Word) : Statement (.sizeofs v) := ⟨rfl, (commandWord_and_mask _ v).trans (by decide)⟩

theorem reserved9 (v : Word) : Statement (.reserved9 v) := ⟨rfl, (commandWord_and_mask _ v).trans (by decide)⟩

theorem reservedA (v : Word) : Statement (.reservedA v) := ⟨rfl, (commandWord_and_mask _ v).trans (by decide)⟩

theorem reservedB (v : Word) : Statement (.reservedB v) := ⟨rfl, (commandWord_and_mask _ v).trans (by decide)⟩

theorem reservedC (v : Word) : Statement (.reservedC v) := ⟨rfl, (commandWord_and_mask _ v).trans (by decide)⟩

theorem reservedD (v : Word) : Statement (.reservedD v) := ⟨rfl, (commandWord_and_mask _ v).trans (by decide)⟩

theorem reservedE (v : Word) : Statement (.reservedE v) := ⟨rfl, (commandWord_and_mask _ v).trans (by decide)⟩

theorem reservedF (v : Word) : Statement (.reservedF v) := ⟨rfl, (commandWord_and_mask _ v).trans (by decide)⟩

theorem wireL1 (v : BitVec 7) : Statement (.wireL1 v) := ⟨rfl, by revert v; decide⟩

theorem wireL2 (v : BitVec 6) : Statement (.wireL2 v) := ⟨rfl, by revert v; decide⟩

theorem wireL3 (v : BitVec 5) : Statement (.wireL3 v) := ⟨rfl, by revert v; decide⟩

theorem wireL4 (v : BitVec 4) : Statement (.wireL4 v) := ⟨rfl, by revert v; decide⟩

theorem wireL5 (v : BitVec 3) : Statement (.wireL5 v) := ⟨rfl, by revert v; decide⟩

theorem wireL6 (v : BitVec 2) : Statement (.wireL6 v) := ⟨rfl, by revert v; decide⟩

theorem wireL7 (v : BitVec 1) : Statement (.wireL7 v) := ⟨rfl, by revert v; decide⟩

theorem wireL8 : Statement .wireL8 := ⟨rfl, by decide⟩

theorem wireL9 : Statement .wireL9 := ⟨rfl, by decide⟩

end Sys2Proof.Laws.TableRow
end

