-- ==== Sys2Proof/Tests/Slice0.lean ====
section
/-! SUPPORT. Tests. Expected results come from spec/: the identifiers S, B, E, M, D, Z, W are vectors of 95_test_vectors.md, the rest
name their rule. After the tests of one step come the witnesses: for each obligation that has hypotheses, an input that meets them,
at the ends of its ranges. -/

namespace Sys2Proof.Tests

open Sys2Proof Sys2Proof.Machine Sys2Proof.Spec

/-! ### Small states -/

/-- A unit after reset with the given source, ended, and the given plans. -/
def unit (rem : List Byte) (srcPlan snkPlan : List Answer) : State :=
  { State.reset with src := ⟨rem, true, srcPlan⟩, snk := ⟨[], snkPlan⟩ }

/-- What a step shows: the response, the bytes left and the bytes written. -/
def seen : Result → Option (Option Response × List Byte × List Byte)
  | .next t => some (t.response, t.src.rem, t.snk.out)
  | .fault _ => none
  | .refused _ => none

/-- The response alone. -/
def answered : Result → Option Response
  | .next t => t.response
  | .fault _ => none
  | .refused _ => none

/-- The status of the response. -/
def statusOf (r : Result) : Option (BitVec 4) := (answered r).map Response.status

/-- The response word, with draw 0 for the part that is free. -/
def wordOf (r : Result) : Option ResponseWord := (answered r).map (Response.word 0)

/-- The name of a payload that the tests use for a fault. -/
def x : IoToken := ⟨7⟩

/-! ### WellFormed -/

/-- R75: each reserved code is refused by the check. -/
theorem test_reserved_ill_formed :
    (Instr.reserved9 0#64).wellFormed = false ∧ (Instr.reservedA 1#64).wellFormed = false
    ∧ (Instr.reservedB 2#64).wellFormed = false ∧ (Instr.reservedC 3#64).wellFormed = false
    ∧ (Instr.reservedD 4#64).wellFormed = false ∧ (Instr.reservedE 5#64).wellFormed = false
    ∧ (Instr.reservedF 0#64).wellFormed = false := by decide

/-- R112: MARKER 9 is outside the domain, MARKER 8 inside. -/
theorem test_marker_domain :
    (Instr.marker 9#64).wellFormed = false ∧ (Instr.marker 0xFFFFFFFFFFFFFFFF#64).wellFormed = false
    ∧ (Instr.marker 8#64).wellFormed = true := by decide

/-- R68, R75: the nearest accepted ones. -/
theorem test_well_formed :
    (Instr.sizeofs 0#64).wellFormed = true ∧ (Instr.wireL9).wellFormed = true
    ∧ (Instr.wireL1 127#7).wellFormed = true := by decide

/-! ### Decoding: words written out from R70, R71, R75 and R61 -/

/-- W1 to W9: the nine operations. -/
theorem test_decode_operations :
    decodeCommand 0x00000000000000257#68 = .sizeof 0x257#64
    ∧ decodeCommand 0x10000000000000257#68 = .encode 0x257#64
    ∧ decodeCommand 0x2123456789ABCDEF0#68 = .decode 0x123456789ABCDEF0#64
    ∧ decodeCommand 0x30000000000000003#68 = .marker 3#64
    ∧ decodeCommand 0x4FFFFFFFFFFFFFED4#68 = .zzenc 0xFFFFFFFFFFFFFED4#64
    ∧ decodeCommand 0x50000000000000257#68 = .zzdec 0x257#64
    ∧ decodeCommand 0x6FFFFFFFFFFFFFED4#68 = .encodes 0xFFFFFFFFFFFFFED4#64
    ∧ decodeCommand 0x78000000000000001#68 = .decodes 0x8000000000000001#64
    ∧ decodeCommand 0x8FFFFFFFFFFFFFED4#68 = .sizeofs 0xFFFFFFFFFFFFFED4#64 := by decide

/-- R75, W10, W11: the seven reserved codes. -/
theorem test_decode_reserved :
    decodeCommand 0x90000000000000000#68 = .reserved9 0#64
    ∧ decodeCommand 0xA0000000000000001#68 = .reservedA 1#64
    ∧ decodeCommand 0xB0000000000000002#68 = .reservedB 2#64
    ∧ decodeCommand 0xC0000000000000003#68 = .reservedC 3#64
    ∧ decodeCommand 0xD0000000000000004#68 = .reservedD 4#64
    ∧ decodeCommand 0xE0000000000000005#68 = .reservedE 5#64
    ∧ decodeCommand 0xF8000000000000000#68 = .reservedF 0x8000000000000000#64 := by decide

/-- R61: the nine classes, each with its value bits neither all 0 nor all 1 where it has two or more. -/
theorem test_decode_first_bytes :
    decodeByte0 0b01010011#8 = .wireL1 0b1010011#7
    ∧ decodeByte0 0b10010011#8 = .wireL2 0b010011#6
    ∧ decodeByte0 0b11010011#8 = .wireL3 0b10011#5
    ∧ decodeByte0 0b11101010#8 = .wireL4 0b1010#4
    ∧ decodeByte0 0b11110110#8 = .wireL5 0b110#3
    ∧ decodeByte0 0b11111001#8 = .wireL6 0b01#2
    ∧ decodeByte0 0b11111101#8 = .wireL7 0b1#1
    ∧ decodeByte0 0b11111110#8 = .wireL8
    ∧ decodeByte0 0b11111111#8 = .wireL9 := by decide

/-- The encoder gives the words of R71 and R61 back. -/
theorem test_encode_words :
    encode (.sizeofs 0xFFFFFFFFFFFFFED4#64) = .command 0x8FFFFFFFFFFFFFED4#68
    ∧ encode (.reserved9 0#64) = .command 0x90000000000000000#68
    ∧ encode (.wireL4 0b1010#4) = .firstByte 0b11101010#8
    ∧ encode .wireL9 = .firstByte 0xFF#8 := by decide

/-- Log 3: byte lists that hold no word are rejected by name. -/
theorem test_decode_rejects :
    decode .command [] = .error .noBytes ∧ decode .source [] = .error .noBytes
    ∧ decode .command [0#8, 0#8, 0#8, 0#8, 0#8, 0#8, 0#8, 0#8] = .error .truncatedCommand
    ∧ decode .command [0#8, 0#8, 0#8, 0#8, 0#8, 0#8, 0#8, 0#8, 0x10#8] = .error .paddingNotZero := ⟨rfl, rfl, rfl, rfl⟩

/-- The opcode table's numbers: SIZEOFS with operand 5, class L3, and a number that is no word. -/
theorem test_table_words :
    decodeTableWord 72 0x80000000000000005 = some (.sizeofs 5#64)
    ∧ decodeTableWord 8 0xC0 = some (.wireL3 0#5)
    ∧ decodeTableWord 72 0x100000000000000000 = none ∧ decodeTableWord 8 0x100 = none := by decide

/-! ### One step of each operation -/

/-- E9, E22, E23, E27. -/
theorem test_sizeof :
    answered (exec (.sizeof 599#64) (unit [] [] [])) = some (.ok 2#64)
    ∧ answered (exec (.sizeof 0xFFFFFFFFFFFFFF#64) (unit [] [] [])) = some (.ok 8#64)
    ∧ answered (exec (.sizeof 0x100000000000000#64) (unit [] [] [])) = some (.ok 9#64)
    ∧ answered (exec (.sizeof 0xFFFFFFFFFFFFFFFF#64) (unit [] [] [])) = some (.ok 9#64) := by decide

/-- E9, E13, E5: a two-byte form, a four-byte form, an extra byte of 0x80. -/
theorem test_encode :
    seen (exec (.encode 599#64) (unit [] [] [])) = some (some (.ok 2#64), [], [0x82#8, 0x57#8])
    ∧ seen (exec (.encode 2097152#64) (unit [] [] [])) = some (some (.ok 4#64), [], [0xE0#8, 0x20#8, 0#8, 0#8])
    ∧ seen (exec (.encode 128#64) (unit [] [] [])) = some (some (.ok 2#64), [], [0x80#8, 0x80#8]) := by decide

/-- E24, E1, E20: the byte order of a nine-byte form, the one-byte form, the seven-byte form. -/
theorem test_encode_lengths :
    seen (exec (.encode 0x0123456789ABCDEF#64) (unit [] [] [])) = some (some (.ok 9#64), [],
      [0xFF#8, 0x01#8, 0x23#8, 0x45#8, 0x67#8, 0x89#8, 0xAB#8, 0xCD#8, 0xEF#8])
    ∧ seen (exec (.encode 0#64) (unit [] [] [])) = some (some (.ok 1#64), [], [0#8])
    ∧ seen (exec (.encode 562949953421311#64) (unit [] [] [])) = some (some (.ok 7#64), [],
      [0xFD#8, 0xFF#8, 0xFF#8, 0xFF#8, 0xFF#8, 0xFF#8, 0xFF#8]) := by decide

/-- D5, D4: bytes after the form are left; an extra byte of 0xFF enters unsigned. -/
theorem test_decode :
    seen (exec (.decode 9#64) (unit [0x82#8, 0x57#8, 0xAA#8] [] [])) = some (some (.ok 599#64), [0xAA#8], [])
    ∧ seen (exec (.decode 0#64) (unit [0x80#8, 0xFF#8] [] [])) = some (some (.ok 255#64), [], []) := by decide

/-- D12, D11, D21, D19: truncation after the first byte and before it, a fault on the second read, a non-canonical form. -/
theorem test_decode_ends :
    answered (exec (.decode 0#64) (unit [0xC0#8] [] [])) = some (.fail .unexpectedEndOfStream)
    ∧ answered (exec (.decode 0#64) (unit [] [] [])) = some (.fail .unexpectedEndOfStream)
    ∧ answered (exec (.decode 0#64) (unit [0x82#8, 0x57#8] [.comply, .ioFault x] [])) = some (.fail (.ioFailure x))
    ∧ seen (exec (.decode 0#64) (unit [0xC2#8, 0x57#8, 0x00#8] [] [])) = some (some (.ok 153344#64), [], []) := by
  decide

/-- M1 to M9. -/
theorem test_marker :
    ([0#64, 1#64, 2#64, 3#64, 4#64, 5#64, 6#64, 7#64, 8#64].map fun e => answered (exec (.marker e) (unit [] [] [])))
      = [0x00#64, 0x80#64, 0xC0#64, 0xE0#64, 0xF0#64, 0xF8#64, 0xFC#64, 0xFE#64, 0xFF#64].map fun v => some (.ok v) := by
  decide

/-- M10, M11, M12. -/
theorem test_marker_out_of_range :
    ([9#64, 0xFFFFFFFFFFFFFFFF#64, 64#64].map fun e => answered (exec (.marker e) (unit [] [] [])))
      = [some (.fail .operandRange), some (.fail .operandRange), some (.fail .operandRange)] := by decide

/-- Z11, Z2, Z20, Z24. -/
theorem test_zzenc :
    ([0xFFFFFFFFFFFFFED4#64, 0xFFFFFFFFFFFFFFFF#64, 0x4000000000000000#64, 0x8000000000000000#64].map
      fun n => answered (exec (.zzenc n) (unit [] [] [])))
      = [some (.ok 599#64), some (.ok 1#64), some (.ok 0x8000000000000000#64), some (.ok 0xFFFFFFFFFFFFFFFF#64)] := by
  decide

/-- Z11, Z2, Z20, Z24 the other way. -/
theorem test_zzdec :
    ([599#64, 1#64, 0x8000000000000000#64, 0xFFFFFFFFFFFFFFFF#64].map
      fun u => answered (exec (.zzdec u) (unit [] [] [])))
      = [some (.ok 0xFFFFFFFFFFFFFED4#64), some (.ok 0xFFFFFFFFFFFFFFFF#64), some (.ok 0x4000000000000000#64),
        some (.ok 0x8000000000000000#64)] := by decide

/-- Z11 (S14 with the bytes of C1), Z14. -/
theorem test_encodes :
    seen (exec (.encodes 0xFFFFFFFFFFFFFED4#64) (unit [] [] [])) = some (some (.ok 2#64), [], [0x82#8, 0x57#8])
    ∧ seen (exec (.encodes 8192#64) (unit [] [] [])) = some (some (.ok 3#64), [], [0xC0#8, 0x40#8, 0#8]) := by decide

/-- Z11, Z25, Z27. -/
theorem test_decodes :
    seen (exec (.decodes 0#64) (unit [0x82#8, 0x57#8] [] [])) = some (some (.ok 0xFFFFFFFFFFFFFED4#64), [], [])
    ∧ seen (exec (.decodes 0#64) (unit [0x80#8, 0x01#8] [] [])) = some (some (.ok 0xFFFFFFFFFFFFFFFF#64), [], [])
    ∧ answered (exec (.decodes 0#64) (unit [0x82#8] [] [])) = some (.fail .unexpectedEndOfStream) := by
  decide

/-- Z6, Z9, Z17, Z19. -/
theorem test_sizeofs :
    ([0x3F#64, 0xFFFFFFFFFFFFFFBF#64, 0xFF80000000000000#64, 0xFF7FFFFFFFFFFFFF#64].map
      fun n => answered (exec (.sizeofs n) (unit [] [] [])))
      = [some (.ok 1#64), some (.ok 2#64), some (.ok 8#64), some (.ok 9#64)] := by decide

/-- R183: all seven reserved codes, with the nearest accepted code beside them in `test_sizeofs`. -/
theorem test_reserved :
    ([.reserved9 0#64, .reservedA 0#64, .reservedB 0#64, .reservedC 0#64, .reservedD 0#64, .reservedE 0#64,
      .reservedF 0#64].map fun i => seen (exec i (unit [1#8] [] [])))
      = List.replicate 7 (some (some (.fail .illegalOperation), [1#8], [])) := by decide

/-- D2, D6, D8: classes L1, L2, L3. -/
theorem test_first_bytes_short :
    seen (exec (.wireL1 0x7F#7) (unit [0xAA#8] [] [])) = some (some (.ok 127#64), [0xAA#8], [])
    ∧ seen (exec (.wireL2 0x3F#6) (unit [0xFF#8] [] [])) = some (some (.ok 16383#64), [], [])
    ∧ seen (exec (.wireL3 0#5) (unit [0#8, 5#8, 0xAA#8] [] [])) = some (some (.ok 5#64), [0xAA#8], []) := by decide

/-- E14, E16, E18, E20: classes L4, L5, L6, L7. -/
theorem test_first_bytes_middle :
    seen (exec (.wireL4 0xF#4) (unit [0xFF#8, 0xFF#8, 0xFF#8] [] [])) = some (some (.ok 268435455#64), [], [])
    ∧ seen (exec (.wireL5 7#3) (unit (List.replicate 4 0xFF#8) [] [])) = some (some (.ok 34359738367#64), [], [])
    ∧ seen (exec (.wireL6 3#2) (unit (List.replicate 5 0xFF#8) [] [])) = some (some (.ok 4398046511103#64), [], [])
    ∧ seen (exec (.wireL7 1#1) (unit (List.replicate 6 0xFF#8) [] [])) = some (some (.ok 562949953421311#64), [], []) := by
  decide

/-- E21, D16: classes L8, L9. -/
theorem test_first_bytes_long :
    seen (exec .wireL8 (unit [2#8, 0#8, 0#8, 0#8, 0#8, 0#8, 0#8] [] [])) = some (some (.ok 562949953421312#64), [], [])
    ∧ seen (exec .wireL9 (unit [0x01#8, 0x23#8, 0x45#8, 0x67#8, 0x89#8, 0xAB#8, 0xCD#8, 0xEF#8] [] []))
      = some (some (.ok 0x0123456789ABCDEF#64), [], []) := by decide

/-- W1, W4, W6 and W10 to W14: response words, whole for `Ok` and the status of a failure. -/
theorem test_response_words :
    wordOf (exec (.sizeof 599#64) (unit [] [] [])) = some 0x00000000000000002#68
    ∧ wordOf (exec (.marker 3#64) (unit [] [] [])) = some 0x000000000000000E0#68
    ∧ wordOf (exec (.zzdec 599#64) (unit [] [] [])) = some 0x0FFFFFFFFFFFFFED4#68
    ∧ statusOf (exec (.reserved9 0#64) (unit [] [] [])) = some 3#4
    ∧ statusOf (exec (.marker 9#64) (unit [] [] [])) = some 4#4
    ∧ statusOf (exec (.decode 0#64) (unit [0xC0#8] [] [])) = some 1#4
    ∧ statusOf (exec (.encode 1#64) (unit [] [] [.ioFault x])) = some 2#4 := by decide

/-! ### One step of the machine -/

/-- A command word on the port is decoded and run (W9); an idle unit with nothing pending answers nothing. -/
theorem test_step :
    answered (step { State.reset with events := [.command 0x8FFFFFFFFFFFFFED4#68] }) = some (.ok 2#64)
    ∧ answered (step State.reset) = none := by decide

/-- The word of a row runs as the first instruction after reset: SIZEOF 599, and a first byte of class L2 with a zero byte after it. -/
theorem test_fetch :
    answered (step (State.reset.withFetchWord 72 0x257)) = some (.ok 2#64)
    ∧ answered (step (State.reset.withFetchWord 8 0x81)) = some (.ok 256#64) := by decide

/-- B1, B3, B5, B6, B8: the two counts. -/
theorem test_bit_counts :
    ([0#64, 2#64, 128#64, 0xFFFFFFFFFFFFFF#64, 0x8000000000000000#64].map fun v => (clz64 (v ||| 1#64), bitlen64 v))
      = [(63, 1), (62, 2), (56, 8), (8, 56), (0, 64)] := by decide

/-- B11 to B15, B23 to B25: leading 1-bits and the value bits. -/
theorem test_leading_ones :
    ([0x7F#8, 0x80#8, 0xBF#8, 0xC0#8, 0xDF#8, 0xFD#8, 0xFE#8, 0xFF#8].map fun b => (clo8 b, b &&& valueMask (clo8 b)))
      = [(0, 0x7F#8), (1, 0#8), (1, 0x3F#8), (2, 0#8), (2, 0x1F#8), (6, 1#8), (7, 0#8), (8, 0#8)] := by decide

/-! ### Witnesses: inputs that meet the hypotheses of the obligations -/

/-- LeadingZerosFromLogarithm, BitLengthBoundsTheValue: values of 1 and more, at both ends. -/
theorem witness_positive_value : 1 ≤ (1#64).toNat ∧ 1 ≤ (0xFFFFFFFFFFFFFFFF#64).toNat := by decide

/-- LeadingOnesIsTheLargestCount, MarkerHasLeadingOnes: both ends of the count, and a bit position in its range. -/
theorem witness_count : 0 ≤ 8 ∧ 8 ≤ 8 ∧ 8 - 8 ≤ 0 ∧ 8 - 0 ≤ 8 ∧ 8 - 1 ≤ 7 ∧ 7 ≤ 7 := by decide

/-- SizeOfStatedProperties: an ordered pair, and both ends of the length. -/
theorem witness_ordered_values :
    (127#64).toNat ≤ (128#64).toNat ∧ 1 ≤ 1 ∧ 1 ≤ 8 ∧ 8 ≤ 8 ∧ 2 ^ 56 ≤ (0x100000000000000#64).toNat := by decide

/-- MarkerAnswersOrFails: the operands where the two clauses meet. -/
theorem witness_marker : (0#64).toNat ≤ 8 ∧ (8#64).toNat ≤ 8 ∧ 8 < (9#64).toNat ∧ 8 < (0xFFFFFFFFFFFFFFFF#64).toNat := by
  decide

/-- EncodedFormLayout, FirstByteIsWellFormed: values whose forms have 1, 2, 8 and 9 bytes, with an index in the form. -/
theorem witness_lengths :
    vintSizeOf 127#64 = 0 + 1 ∧ vintSizeOf 128#64 = 1 + 1 ∧ vintSizeOf 0xFFFFFFFFFFFFFF#64 = 7 + 1
    ∧ vintSizeOf 0x100000000000000#64 = 8 + 1 ∧ 1 ≤ 1 ∧ 1 ≤ 7 ∧ 7 ≤ 7 ∧ 8 ≤ 8 := by decide

/-- EncodedFormsAreCanonical: a first byte of 0xFF, an operation that answers `Ok` and has written, one that has not. -/
theorem witness_canonical :
    (vintEncode 0x100000000000000#64).head? = some 0xFF#8
    ∧ (∃ t, exec (.encode 599#64) (unit [] [] []) = .next t ∧ t.response = some (.ok 2#64)
      ∧ t.snk.out = [0x82#8, 0x57#8])
    ∧ (∃ t, exec (.sizeof 599#64) (unit [] [] []) = .next t ∧ t.response = some (.ok 2#64) ∧ t.snk.out = [])
    ∧ vintEncode 5#64 <+: vintEncode 5#64 :=
  ⟨by decide, ⟨_, rfl, by decide, by decide⟩, ⟨_, rfl, by decide, by decide⟩, List.prefix_rfl⟩

/-- EncodeWritesTheForm: a sink that serves, with and without a plan. -/
theorem witness_sink_serves : (unit [] [] []).snk.serves ∧ (unit [] [] [.comply, .silent]).snk.serves := by decide

/-- EncodeReportsSinkFault. -/
theorem witness_sink_faults : nextAnswer (unit [] [] [.ioFault x]).snk.plan = .ioFault x := by decide

/-- ScratchBufferHoldsTheForm, EncodeFrame, RequestWidths: ENCODE and ENCODES that run, of forms of 1, 2 and 9 bytes, with a sink that
serves, faults and stays silent. -/
theorem witness_encode_runs :
    (∃ t, exec (.encode 127#64) (unit [] [] []) = .next t) ∧ vintSizeOf 127#64 = 1
    ∧ (∃ t, exec (.encode 128#64) (unit [] [] [.ioFault x]) = .next t) ∧ 2 ≤ vintSizeOf 128#64
    ∧ (∃ t, exec (.encodes 0x8000000000000000#64) (unit [] [] [.silent]) = .next t)
    ∧ vintSizeOf (zigzagEncode 0x8000000000000000#64) = 9 :=
  ⟨⟨_, rfl⟩, by decide, ⟨_, rfl⟩, by decide, ⟨_, rfl⟩, by decide⟩

/-- DecodingAssemblesTheValue, FoldNeverOverflows: whole forms of 1, 2, 8 and 9 bytes, and a list with a last byte. -/
theorem witness_whole_forms :
    ([] : List Byte).length = clo8 0x7F#8 ∧ [0x57#8].length = clo8 0x82#8
    ∧ (List.replicate 7 0xFF#8).length = clo8 0xFE#8 ∧ (List.replicate 8 0xFF#8).length = clo8 0xFF#8
    ∧ [0x57#8] = [] ++ [0x57#8] ∧ clo8 0xFE#8 ≤ 7 := by decide

/-- DecodeAnswersTheValue, DecodeRunsTheFirstByte: sources that hold a form of 1 and of 9 bytes. -/
theorem witness_decode_served :
    (unit [0x7F#8, 1#8] [] []).src.rem = 0x7F#8 :: [1#8] ∧ nextAnswer (unit [0x7F#8, 1#8] [] []).src.plan = .comply
    ∧ ¬ 1 ≤ clo8 0x7F#8
    ∧ (unit (List.replicate 9 0xFF#8) [.comply] []).src.rem = 0xFF#8 :: List.replicate 8 0xFF#8
    ∧ nextAnswer (unit (List.replicate 9 0xFF#8) [.comply] []).src.plan = .comply
    ∧ 1 ≤ clo8 0xFF#8 ∧ nextAnswer (unit (List.replicate 9 0xFF#8) [.comply] []).src.plan.tail = .comply
    ∧ clo8 0xFF#8 ≤ (List.replicate 8 0xFF#8).length := by decide

/-- DecodeAgreesWithDecodeBytes: a source that is whole and one that is cut, both reliable. -/
theorem witness_reliable :
    (unit [0x82#8, 0x57#8] [] []).src.reliable ∧ vintDecode (unit [0x82#8, 0x57#8] [] []).src.rem = some (599#64, 2)
    ∧ (unit [0x82#8] [.comply] []).src.reliable ∧ vintDecode (unit [0x82#8] [.comply] []).src.rem = none := by decide

/-- DecodeReportsTruncation: nothing left, and one byte too few. -/
theorem witness_truncation :
    (unit [] [] []).src.ended = true ∧ nextAnswer (unit [] [] []).src.plan = .comply ∧ (unit [] [] []).src.rem = []
    ∧ (unit [0xC0#8, 1#8] [] []).src.ended = true ∧ nextAnswer (unit [0xC0#8, 1#8] [] []).src.plan = .comply
    ∧ (unit [0xC0#8, 1#8] [] []).src.rem = 0xC0#8 :: [1#8] ∧ [1#8].length < clo8 0xC0#8
    ∧ nextAnswer (unit [0xC0#8, 1#8] [] []).src.plan.tail = .comply := by decide

/-- DecodeReportsSourceFault: a fault on the first read, and on the second (D20, D21). -/
theorem witness_source_fault :
    nextAnswer (unit [0x82#8, 0x57#8] [.ioFault x] []).src.plan = .ioFault x
    ∧ (unit [0x82#8, 0x57#8] [.comply, .ioFault x] []).src.rem = 0x82#8 :: [0x57#8]
    ∧ nextAnswer (unit [0x82#8, 0x57#8] [.comply, .ioFault x] []).src.plan = .comply ∧ 1 ≤ clo8 0x82#8
    ∧ nextAnswer (unit [0x82#8, 0x57#8] [.comply, .ioFault x] []).src.plan.tail = .ioFault x := by decide

/-- DecodeConsumesExactlyTheForm: a DECODE and a DECODES that answer `Ok`. -/
theorem witness_decode_ok :
    (∃ t, exec (.decode 0#64) (unit [0x82#8, 0x57#8] [] []) = .next t ∧ t.response = some (.ok 599#64))
    ∧ (∃ t, exec (.decodes 0#64) (unit [0#8] [] []) = .next t ∧ t.response = some (.ok 0#64)) :=
  ⟨⟨_, rfl, by decide⟩, ⟨_, rfl, by decide⟩⟩

/-- NonCanonicalFormsAreAccepted: 5 in one byte and in nine, and the form `80 05` (D7) in a reliable source. -/
theorem witness_non_canonical :
    (5#64).toNat < 2 ^ cap (0 + 1) ∧ (5#64).toNat < 2 ^ cap (8 + 1) ∧ (127#64).toNat < 2 ^ cap (0 + 1)
    ∧ IsForm [0x80#8, 5#8] ∧ (unit ([0x80#8, 5#8] ++ [1#8]) [] []).src.rem = [0x80#8, 5#8] ++ [1#8]
    ∧ (unit ([0x80#8, 5#8] ++ [1#8]) [] []).src.reliable :=
  ⟨by decide, by decide, by decide, ⟨_, _, rfl, by decide⟩, rfl, by decide⟩

/-- DecodeInvertsEncode: an ENCODE that answers `Ok`, and a source with the bytes it wrote. -/
theorem witness_inverse :
    (∃ t, exec (.encode 599#64) (unit [] [] []) = .next t ∧ t.response = some (.ok 2#64)
      ∧ t.snk.out = [] ++ [0x82#8, 0x57#8])
    ∧ (unit [0x82#8, 0x57#8] [] []).src.rem = [0x82#8, 0x57#8] ++ [] ∧ (unit [0x82#8, 0x57#8] [] []).src.reliable :=
  ⟨⟨_, rfl, by decide, by decide⟩, by decide, by decide⟩

/-- MiddleClassesAnswerTheForm, LongClassesAnswerTheTrailingBytes: sources that serve 1, 6, 7 and 8 bytes and no more. -/
theorem witness_first_byte :
    (unit [0xFF#8] [] []).src.serves 1 ∧ (unit (List.replicate 6 0xFF#8) [] []).src.serves 6
    ∧ (unit (List.replicate 7 0xFF#8) [] []).src.serves 7 ∧ (unit (List.replicate 8 0xFF#8) [] []).src.serves 8 := by
  decide

/-- DecodeFrame: a decode, a short first byte and a long one that run, on sources that serve, are cut and stay silent. -/
theorem witness_decoder_runs :
    usesDecoder (.decodes 0#64) = true ∧ (∃ t, exec (.decodes 0#64) (unit [0#8] [.silent] []) = .next t)
    ∧ usesDecoder (.wireL1 0#7) = true ∧ (∃ t, exec (.wireL1 0#7) (unit [] [] []) = .next t)
    ∧ usesDecoder .wireL9 = true ∧ (∃ t, exec .wireL9 (unit [0#8] [] []) = .next t) :=
  ⟨rfl, ⟨_, rfl⟩, rfl, ⟨_, rfl⟩, rfl, ⟨_, rfl⟩⟩

/-- ZzencAnswersTheMappedValue, SizeofsAnswersTheSignedLength, ZigzagFollowsTheInterleavedOrder: both ends of `i64`. -/
theorem witness_signed_range :
    (-2 ^ 63 ≤ (-2 ^ 63 : Int) ∧ (-2 ^ 63 : Int) < 2 ^ 63) ∧ (-2 ^ 63 ≤ (2 ^ 63 - 1 : Int) ∧ (2 ^ 63 - 1 : Int) < 2 ^ 63)
    ∧ |(2 ^ 63 - 1 : Int)| < |(-2 ^ 63 : Int)| ∧ 1 ≤ 2 ^ 63 - 1 ∧ 2 ^ 63 - 1 < 2 ^ 63 ∧ 2 ^ 64 - 1 < 2 ^ 64 ∧ 1 ≤ 64
    ∧ 64 ≤ 64 := by
  refine ⟨by decide, by decide, ?_, by decide, by decide, by decide, by decide, by decide⟩
  norm_num

/-- SignedPipelineRoundTrip: an ENCODES that answers `Ok`, and a source with the bytes it wrote (Z11). -/
theorem witness_signed_inverse :
    (∃ t, exec (.encodes 0xFFFFFFFFFFFFFED4#64) (unit [] [] []) = .next t ∧ t.response = some (.ok 2#64)
      ∧ t.snk.out = [] ++ [0x82#8, 0x57#8])
    ∧ (unit [0x82#8, 0x57#8, 1#8] [] []).src.rem = [0x82#8, 0x57#8] ++ [1#8]
    ∧ (unit [0x82#8, 0x57#8, 1#8] [] []).src.reliable :=
  ⟨⟨_, rfl, by decide, by decide⟩, by decide, by decide⟩

/-- ReservedCodesFail: the first and the last reserved word. -/
theorem witness_reserved :
    9 ≤ (0x90000000000000000#68).toNat / 2 ^ 64 ∧ 9 ≤ (0xFFFFFFFFFFFFFFFFF#68).toNat / 2 ^ 64
    ∧ ¬ 9 ≤ (0x8FFFFFFFFFFFFFFFF#68).toNat / 2 ^ 64 := by decide

/-- ConditionsByOperation: an instruction that fails with each condition. -/
theorem witness_conditions :
    (∃ t, exec (.decode 0#64) (unit [] [] []) = .next t ∧ t.response = some (.fail .unexpectedEndOfStream))
    ∧ (∃ t, exec (.encode 0#64) (unit [] [] [.ioFault x]) = .next t ∧ t.response = some (.fail (.ioFailure x)))
    ∧ (∃ t, exec (.reservedF 0#64) (unit [] [] []) = .next t ∧ t.response = some (.fail .illegalOperation))
    ∧ (∃ t, exec (.marker 9#64) (unit [] [] []) = .next t ∧ t.response = some (.fail .operandRange)) :=
  ⟨⟨_, rfl, by decide⟩, ⟨_, rfl, by decide⟩, ⟨_, rfl, by decide⟩, ⟨_, rfl, by decide⟩⟩

/-- RequestWidths: a decode that asks once and one that asks twice, and operations that ask for nothing. -/
theorem witness_widths :
    (∃ t, exec (.decode 0#64) (unit [] [] []) = .next t ∧ t.requests = [.read 1])
    ∧ (∃ t, exec (.decodes 0#64) (unit [0xFF#8] [] []) = .next t ∧ t.requests = [.read 1, .read 8])
    ∧ (∃ t, exec (.encodes 0#64) (unit [] [] []) = .next t ∧ t.requests = [.write [0#8]])
    ∧ (∃ t, exec (.zzdec 0#64) (unit [] [] []) = .next t ∧ t.requests = [])
    ∧ (unit [0xFF#8] [] []).src.rem.head? = some 0xFF#8 ∧ nextAnswer (unit [0xFF#8] [] []).src.plan = .comply
    ∧ 1 ≤ clo8 0xFF#8 :=
  ⟨⟨_, rfl, by decide⟩, ⟨_, rfl, by decide⟩, ⟨_, rfl, by decide⟩, ⟨_, rfl, by decide⟩, by decide, by decide, by decide⟩

/-- OperationsCompleteWhenAnswered: an encode whose source is silent and whose sink answers with a fault; decodes whose sink is silent
and whose source has not ended and has just the bytes of a form of one byte and of two; a first byte with just its extra byte; and an
operation that asks for nothing, with both streams silent. -/
theorem witness_answered :
    (unit [] [.silent] [.ioFault x]).idle ∧ ¬ (unit [] [.silent] [.ioFault x]).snk.unanswered
    ∧ ¬ (Source.mk [0x7F#8] false []).unanswered 1 ∧ ¬ 1 ≤ clo8 0x7F#8
    ∧ (Source.mk [0x82#8, 0x57#8] false []).rem.head? = some 0x82#8
    ∧ ¬ (Source.mk [0x82#8, 0x57#8] false []).unanswered 1
    ∧ ¬ ((Source.mk [0x82#8, 0x57#8] false []).take 1).unanswered (clo8 0x82#8)
    ∧ encode (.wireL2 2#6) = .firstByte 0x82#8 ∧ ¬ (Source.mk [0x57#8] false []).unanswered (clo8 0x82#8)
    ∧ (unit [] [.silent] [.silent]).idle ∧ usesDecoder (.reservedF 0#64) = false ∧ writesSink (.reservedF 0#64) = false := by
  decide

/-- UnansweredOperationHangs: a silent sink; a source that is silent at the first read, empty and not ended, silent at the second read,
one extra byte short and not ended; the same for a first byte; and a unit in progress that the host does not reset. -/
theorem witness_hang :
    (unit [] [] [.silent]).snk.unanswered ∧ (unit [0#8] [.silent] []).src.unanswered 1
    ∧ (Source.mk [] false []).unanswered 1
    ∧ (Source.mk [0x82#8, 0x57#8] true [.comply, .silent]).rem.head? = some 0x82#8
    ∧ nextAnswer (Source.mk [0x82#8, 0x57#8] true [.comply, .silent]).plan = .comply ∧ 1 ≤ clo8 0x82#8
    ∧ ((Source.mk [0x82#8, 0x57#8] true [.comply, .silent]).take 1).unanswered (clo8 0x82#8)
    ∧ ((Source.mk [0xC0#8, 1#8] false []).take 1).unanswered (clo8 0xC0#8)
    ∧ encode .wireL9 = .firstByte 0xFF#8 ∧ (Source.mk (List.replicate 7 0#8) false []).unanswered (clo8 0xFF#8)
    ∧ State.inProgress { State.reset with inProgress := some .decode, events := [.command 0#68] } = some .decode
    ∧ (State.events { State.reset with inProgress := some .decode, events := [.command 0#68] }).head? ≠ some .reset
    ∧ State.events State.reset = [] := by decide

/-- StepStopsExactlyWhenHung: a safe state of each kind, and one that is not safe. -/
theorem witness_safe :
    State.reset.safe ∧ State.safe { State.reset with inProgress := some .encode, events := [.reset] }
    ∧ ¬ State.safe { State.reset with inProgress := some .encode } := by decide

/-- ResetAbandonsTheOperation: a reset that finds an operation in progress. -/
theorem witness_reset :
    State.events { State.reset with inProgress := some .encode, events := [.reset, .command 0#68] }
      = .reset :: [.command 0#68] := by decide

/-- StepRunsTheDecodedCommand: an idle unit with each kind of action pending. -/
theorem witness_step :
    State.reset.idle
    ∧ State.events { State.reset with events := [.command 0x90000000000000000#68] } = .command 0x90000000000000000#68 :: []
    ∧ State.reset.events = []
    ∧ State.events { State.reset with events := [.attachSource ⟨[1#8], false, []⟩] } = .attachSource ⟨[1#8], false, []⟩ :: []
    ∧ State.events { State.reset with events := [.attachSink ⟨[1#8], []⟩] } = .attachSink ⟨[1#8], []⟩ :: [] := by decide

/-- OperationsFollowTheHostsOrder: two ENCODE words and a reliable sink; two DECODE words and a reliable source with two forms. -/
theorem witness_order :
    State.events { unit [] [] [] with
        events := [.command (commandWord 0x1#4 0#64), .command (commandWord 0x1#4 128#64)] }
      = .command (commandWord 0x1#4 0#64) :: .command (commandWord 0x1#4 128#64) :: []
    ∧ (unit [] [] []).idle ∧ (unit [] [] []).snk.reliable
    ∧ State.events { unit [0#8, 0x80#8, 0x80#8, 1#8] [] [] with
        events := [.command (commandWord 0x2#4 0#64), .command (commandWord 0x2#4 0#64)] }
      = .command (commandWord 0x2#4 0#64) :: .command (commandWord 0x2#4 0#64) :: []
    ∧ (unit [0#8, 0x80#8, 0x80#8, 1#8] [] []).src.reliable ∧ ([] : List Byte).length = clo8 0#8
    ∧ [0x80#8].length = clo8 0x80#8
    ∧ (unit [0#8, 0x80#8, 0x80#8, 1#8] [] []).src.rem = (0#8 :: []) ++ (0x80#8 :: [0x80#8]) ++ [1#8] := by decide

/-- ResponsesDoNotDependOnStoredState: two states that differ in the stored state and agree on the streams and the draws. -/
theorem witness_stored_state :
    State.src { unit [0x82#8] [] [] with sb := List.replicate 9 0xFF#8, acc := 5#64, n := 3#4 } = (unit [0x82#8] [] []).src
    ∧ State.snk { unit [0x82#8] [] [] with sb := List.replicate 9 0xFF#8, acc := 5#64, n := 3#4 } = (unit [0x82#8] [] []).snk
    ∧ State.draws { unit [0x82#8] [] [] with sb := List.replicate 9 0xFF#8, acc := 5#64, n := 3#4 }
      = (unit [0x82#8] [] []).draws
    ∧ ({ unit [0x82#8] [] [] with sb := List.replicate 9 0xFF#8, acc := 5#64, n := 3#4 } : State) ≠ unit [0x82#8] [] [] := by
  decide

/-- StepKeepsTheInvariant: a state that meets the invariant with a command pending, one with an operation in progress that is reset,
and a step from each. -/
theorem witness_invariant :
    State.Inv { unit [] [.silent] [] with events := [.command (commandWord 0x2#4 0#64)] }
    ∧ (∃ t, step { unit [] [.silent] [] with events := [.command (commandWord 0x2#4 0#64)] } = .next t
      ∧ t.inProgress = some .decode)
    ∧ State.Inv { unit [] [] [] with inProgress := some .encodes, requests := [.write [1#8]], n := 1#4, events := [.reset] }
    ∧ (∃ t, step { unit [] [] [] with
        inProgress := some .encodes, requests := [.write [1#8]], n := 1#4, events := [.reset] } = .next t) :=
  ⟨by decide, ⟨_, rfl, by decide⟩, by decide, ⟨_, rfl⟩⟩

/-- UnitsShareNothing: two units that each take a step. -/
theorem witness_units :
    (∃ vs ws, stepUnit 0 [State.reset, unit [1#8] [] []] = .next vs ∧ stepUnit 1 vs = .next ws) ∧ 0 ≠ 1 :=
  ⟨⟨_, _, rfl, rfl⟩, by decide⟩

/-- R196, R215: two idle units exchange their sources; with one in progress nothing happens. -/
theorem test_hand_source :
    (handSource 0 1 [unit [1#8] [] [], unit [2#8] [] []]).map (fun u => u.src.rem) = [[2#8], [1#8]]
    ∧ (handSource 0 1 [{ unit [1#8] [] [] with inProgress := some .decode }, unit [2#8] [] []]).map (fun u => u.src.rem)
      = [[1#8], [2#8]] := by decide

/-- HandingOverExchangesTheStream: two idle units and a third, and a pair of which one is in progress. -/
theorem witness_hand_over :
    ([unit [1#8] [] [], unit [2#8] [] [], State.reset] : Units)[0]? = some (unit [1#8] [] [])
    ∧ ([unit [1#8] [] [], unit [2#8] [] [], State.reset] : Units)[1]? = some (unit [2#8] [] [])
    ∧ (unit [1#8] [] []).idle ∧ (unit [2#8] [] []).idle ∧ 2 ≠ 0 ∧ 2 ≠ 1
    ∧ ¬ (State.idle { unit [1#8] [] [] with inProgress := some .decode } ∧ (unit [2#8] [] []).idle) := by decide

end Sys2Proof.Tests
end

section
/-! SUPPORT. The reset of a unit (R33, R210): the step that takes it, and the obligation it settles. -/

namespace Sys2Proof.Proofs

open Sys2Proof Sys2Proof.Machine

/-- A pending reset is taken whether or not an operation is in progress. -/
theorem step_reset {s : State} {rest : List HostEvent} (h : s.events = .reset :: rest) :
    step s = .next (s.takeEvent rest).resetUnit := by
  unfold step advance
  rw [h]
  cases s.inProgress with
  | none => rfl
  | some op => rfl

/-- Settles O49: the step is `resetUnit` after the action is taken, and neither touches the streams. -/
theorem resetAbandonsTheOperation : Obligations.ResetAbandonsTheOperation := by
  intro s rest h
  exact ⟨(s.takeEvent rest).resetUnit, step_reset h, State.resetUnit_inProgress _, State.resetUnit_response _,
    by simp, by simp, by simp⟩

end Sys2Proof.Proofs
end

section
/-! SUPPORT. The stream requests of every operation (R48): what an instruction that answers `.next t` has done, read off the
outcomes of Laws/Outcomes, and the obligation this settles. -/

namespace Sys2Proof.Proofs

open Sys2Proof Sys2Proof.Machine Sys2Proof.Spec

/-! ### What each kind of instruction has done -/

/-- ENCODE does nothing that an encode cannot do. -/
theorem encodeOutcome_of_exec_encode {v : Word} {s t : State} (h : exec (.encode v) s = .next t) :
    EncodeOutcome .encode v s t := by
  obtain ⟨u, hu, out⟩ := encode_outcome .encode (.inl rfl) v s
  cases hu.symm.trans h
  exact out

/-- ENCODES is an encode of the mapped value (R166). -/
theorem encodeOutcome_of_exec_encodes {v : Word} {s t : State} (h : exec (.encodes v) s = .next t) :
    EncodeOutcome .encodes (zigzagEncode v) s t := by
  obtain ⟨u, hu, out⟩ := encode_outcome .encodes (.inr rfl) (zigzagEncode v) s
  cases hu.symm.trans h
  exact out

/-- DECODE is a decode with nothing after it. -/
theorem decodeOutcome_of_exec_decode {o : Word} {s t : State} (h : exec (.decode o) s = .next t) :
    DecodeOutcome .decode id s t := by
  obtain ⟨u, hu, out⟩ := decode_outcome .decode (.inl rfl) id s
  rw [andThen_done_self] at hu
  cases hu.symm.trans h
  exact out

/-- DECODES is a decode with the ZigZag stage after it (R167). -/
theorem decodeOutcome_of_exec_decodes {o : Word} {s t : State} (h : exec (.decodes o) s = .next t) :
    DecodeOutcome .decodes zigzagDecode s t := by
  obtain ⟨u, hu, out⟩ := decode_outcome .decodes (.inr rfl) zigzagDecode s
  cases hu.symm.trans h
  exact out

/-- DECODE and DECODES do nothing that a decode cannot do. -/
theorem decodeOutcome_of_exec {o : Word} {i : Instr} {s t : State} (hi : i = .decode o ∨ i = .decodes o)
    (h : exec i s = .next t) : ∃ op post, DecodeOutcome op post s t := by
  rcases hi with rfl | rfl
  · exact ⟨_, _, decodeOutcome_of_exec_decode h⟩
  · exact ⟨_, _, decodeOutcome_of_exec_decodes h⟩

/-- An instruction that is neither an encode nor a decode, nor the rest of a decode, only gives a response. -/
theorem exec_eq_respond {i : Instr} (hd : usesDecoder i = false) (hw : writesSink i = false) (s : State) :
    ∃ r, exec i s = .next (s.respond r) := by
  cases i with
  | marker x =>
    by_cases hx : 8 < x.toNat
    · exact ⟨_, if_pos hx⟩
    · exact ⟨_, if_neg hx⟩
  | encode | encodes => cases hw
  | decode | decodes | wireL1 | wireL2 | wireL3 | wireL4 | wireL5 | wireL6 | wireL7 | wireL8 | wireL9 => cases hd
  | sizeof | sizeofs | zzenc | zzdec => exact ⟨_, rfl⟩
  | reserved9 | reservedA | reservedB | reservedC | reservedD | reservedE | reservedF => exact ⟨_, rfl⟩

/-! ### The requests -/

/-- The answers of a source exclude each other: a read it fails is not served. -/
theorem not_serves_of_fails {k : Nat} {c : Condition} {src : Source} (h : src.fails k c) : ¬ src.serves k := by
  rintro ⟨hplan, hlen⟩
  rcases h with ⟨-, -, hlt, -⟩ | ⟨token, -, hfault⟩
  · omega
  · cases hplan.symm.trans hfault

/-- A read the source never answers is not served. -/
theorem not_serves_of_unanswered {k : Nat} {src : Source} (h : src.unanswered k) : ¬ src.serves k := by
  rintro ⟨hplan, hlen⟩
  rcases h with hsilent | ⟨-, hlt, -⟩
  · cases hplan.symm.trans hsilent
  · omega

/-- The read of the first byte is served when there is one and the source complies. -/
theorem serves_one_of_head? {src : Source} {b : Byte} (hb : src.rem.head? = some b)
    (hplan : nextAnswer src.plan = .comply) : src.serves 1 := by
  obtain ⟨u, hu⟩ := List.head?_eq_some_iff.mp hb
  exact ⟨hplan, by simp [hu]⟩

/-- A decode asks for one byte, and for `EXTRA` bytes more exactly when that read was served a byte with `EXTRA >= 1`. -/
theorem decodeOutcome_requests {op : StreamOp} {post : Word → Word} {s t : State} (h : DecodeOutcome op post s t) :
    (t.requests = s.requests ++ [.read 1] ∧ ∀ b, s.src.rem.head? = some b → s.src.serves 1 → clo8 b = 0)
    ∨ ∃ b, s.src.rem.head? = some b ∧ s.src.serves 1 ∧ 1 ≤ clo8 b
      ∧ t.requests = s.requests ++ [.read 1, .read (clo8 b)] := by
  rcases h.ends with ⟨b, u, hr, -, -, -, hreq, -, hplan, -⟩
    | ⟨c, -, -, ⟨hf, hreq, -⟩ | ⟨b, u, hr, hplan, he, -, hreq, -⟩⟩
    | ⟨-, -, ⟨hw, hreq, -⟩ | ⟨b, u, hr, hplan, he, -, hreq, -⟩⟩
  · have hhead : s.src.rem.head? = some b := by rw [hr]; rfl
    by_cases h0 : clo8 b = 0
    · refine .inl ⟨by simpa [h0] using hreq, fun b' hb' _ => ?_⟩
      cases hhead.symm.trans hb'
      exact h0
    · exact .inr ⟨b, hhead, serves_one_of_head? hhead hplan, Nat.pos_of_ne_zero h0, by simpa [h0] using hreq⟩
  · exact .inl ⟨hreq, fun _ _ hs => absurd hs (not_serves_of_fails hf)⟩
  · have hhead : s.src.rem.head? = some b := by rw [hr]; rfl
    exact .inr ⟨b, hhead, serves_one_of_head? hhead hplan, he, hreq⟩
  · exact .inl ⟨hreq, fun _ _ hs => absurd hs (not_serves_of_unanswered hw)⟩
  · have hhead : s.src.rem.head? = some b := by rw [hr]; rfl
    exact .inr ⟨b, hhead, serves_one_of_head? hhead hplan, he, hreq⟩

/-- An instruction that only gives a response asks for nothing. -/
theorem exec_requests_unchanged {i : Instr} {s t : State} (hd : usesDecoder i = false) (hw : writesSink i = false)
    (h : exec i s = .next t) : t.requests = s.requests := by
  obtain ⟨r, hr⟩ := exec_eq_respond hd hw s
  cases hr.symm.trans h
  exact State.respond_requests s r

/-- An encode makes one write, of as many bytes as the value's form has: 1 to 9. -/
theorem encodeOutcome_write {op : StreamOp} {v : Word} {s t : State} (h : EncodeOutcome op v s t) :
    ∃ bytes, t.requests = s.requests ++ [.write bytes] ∧ bytes.length = vintSizeOf v
      ∧ 1 ≤ bytes.length ∧ bytes.length ≤ 9 := by
  have hlen := vintEncode_length v
  exact ⟨vintEncode v, h.requests, hlen, hlen ▸ vintSizeOf_bounds v⟩

/-- Settles O44, from the requests of a decode, of an encode, and of an instruction that is neither. -/
theorem requestWidths : Obligations.RequestWidths := by
  refine ⟨?reads, ?bothReads, ?write, ?none⟩
  case reads =>
    intro o s t i hi h
    obtain ⟨op, post, out⟩ := decodeOutcome_of_exec hi h
    rcases decodeOutcome_requests out with ⟨hreq, -⟩ | ⟨b, hb, -, he, hreq⟩
    · exact .inl hreq
    · exact .inr ⟨b, hb, he, clo8_le b, hreq⟩
  case bothReads =>
    intro o s t i b hi h hb hplan he
    obtain ⟨op, post, out⟩ := decodeOutcome_of_exec hi h
    rcases decodeOutcome_requests out with ⟨-, hzero⟩ | ⟨b', hb', -, -, hreq⟩
    · have := hzero b hb (serves_one_of_head? hb hplan)
      omega
    · cases hb'.symm.trans hb
      exact hreq
  case write =>
    rintro v u s t (⟨h, rfl⟩ | ⟨h, rfl⟩)
    · exact encodeOutcome_write (encodeOutcome_of_exec_encode h)
    · exact encodeOutcome_write (encodeOutcome_of_exec_encodes h)
  case none =>
    rintro v s t i (rfl | rfl | rfl | rfl | rfl) h <;> exact exec_requests_unchanged rfl rfl h

end Sys2Proof.Proofs
end

section
/-! SUPPORT. Decoding a form gives R66's sum: the fold on words is the sum on numbers, and the sum is below `2^64`. -/

namespace Sys2Proof.Proofs

open Sys2Proof Sys2Proof.Machine Sys2Proof.Spec

/-- A number of `m` bits set above one of `n` bits has `m + n` bits. -/
theorem mul_two_pow_add_lt {a x m n : Nat} (ha : a < 2 ^ m) (hx : x < 2 ^ n) : a * 2 ^ n + x < 2 ^ (m + n) := by
  rw [pow_add, Nat.mul_comm a]
  exact Nat.mul_add_lt_mul_of_lt_of_lt ha hx

/-- Each byte adds eight bits to the number a list of bytes stands for. -/
theorem beValue_lt (t : List Byte) : beValue t < 2 ^ (8 * t.length) := by
  induction t with
  | nil => exact Nat.one_pos
  | cons c t ih =>
    rw [List.length_cons, Nat.mul_succ, Nat.add_comm]
    exact mul_two_pow_add_lt c.isLt ih

/-- The fold shifts the accumulator up by the bytes it takes and adds the number they stand for. -/
theorem foldBytes_eq_ofNat (acc : Word) (t : List Byte) :
    foldBytes acc t = BitVec.ofNat 64 (acc.toNat * 2 ^ (8 * t.length) + beValue t) := by
  induction t generalizing acc with
  | nil => simp [beValue]
  | cons c t ih =>
    have hsum : (acc.toNat * 256 + c.toNat) * 2 ^ (8 * t.length) + beValue t
        = acc.toNat * 2 ^ (8 * (c :: t).length) + beValue (c :: t) := by
      rw [List.length_cons, beValue]
      ring
    rw [foldBytes_cons, ih, shiftLeft_or_byte, ← hsum]
    apply BitVec.eq_of_toNat_eq
    simp [Nat.add_mod, Nat.mul_mod]

/-- R66's sum of a whole form: the value bits of the first byte above all the bytes after it. -/
theorem formValue_of_length {e : Nat} {t : List Byte} (b : Byte) (h : t.length = e) :
    formValue e b t = b.toNat % 2 ^ (8 - e) * 2 ^ (8 * t.length) + beValue t := by
  rw [formValue, List.take_of_length_le h.le, h]

/-- R66's sum of a whole form with up to eight extra bytes is a 64-bit value: at most `8 - e` bits above `8 * e`. -/
theorem formValue_lt {e : Nat} {t : List Byte} (b : Byte) (he : e ≤ 8) (h : t.length = e) :
    formValue e b t < 2 ^ 64 := by
  rw [formValue_of_length b h]
  calc _ < 2 ^ (8 - e + 8 * t.length) := mul_two_pow_add_lt (Nat.mod_lt _ (Nat.two_pow_pos _)) (beValue_lt t)
    _ ≤ 2 ^ 64 := Nat.pow_le_pow_right Nat.two_pos (by omega)

/-- The fold over a whole form, from the value bits of its first byte, is R66's sum. -/
theorem foldBytes_firstByteValue {e : Nat} {t : List Byte} (b : Byte) (he : e ≤ 8) (h : t.length = e) :
    foldBytes (firstByteValue b e) t = BitVec.ofNat 64 (formValue e b t) := by
  rw [foldBytes_eq_ofNat, firstByteValue_toNat b he, formValue_of_length b h]

/-- The decoder takes from a list as many bytes as its first byte announces, and no more. -/
theorem vintDecode_form_append {b : Byte} {t : List Byte} (h : t.length = clo8 b) (rest : List Byte) :
    vintDecode (b :: t ++ rest) = some (foldBytes (firstByteValue b (clo8 b)) t, 1 + clo8 b) := by
  have hlen : ¬ (t ++ rest).length < clo8 b := by simp [← h]
  rw [List.cons_append, vintDecode, if_neg hlen, ← h, List.take_left]

/-- Settles O22: the decoder folds exactly the bytes of the form, and the fold is R66's sum. -/
theorem decodingAssemblesTheValue : Obligations.DecodingAssemblesTheValue := by
  intro b t rest h
  rw [vintDecode_form_append h, foldBytes_firstByteValue b (clo8_le b) h]
  exact ⟨rfl, formValue_lt b (clo8_le b) h⟩

end Sys2Proof.Proofs
end

section
/-! SUPPORT. The reserved operation codes (R75, R183): which command words have one, and what such a word does. -/

namespace Sys2Proof.Proofs

open Sys2Proof Sys2Proof.Machine

/-- `OP` is the quotient of the command word by `2^64`. -/
theorem opField_toNat (w : CommandWord) : (opField w).toNat = w.toNat / 2 ^ 64 := by
  have hop : w.toNat / 2 ^ 64 < 2 ^ 4 := Nat.div_lt_of_lt_mul w.isLt
  rw [opField, BitVec.extractLsb'_toNat, Nat.shiftRight_eq_div_pow, Nat.mod_eq_of_lt hop]

/-- A command word selects no operation exactly when its `OP` is 9 or more. -/
theorem decodeCommand_selectsOperation_eq_false_iff (w : CommandWord) :
    (decodeCommand w).selectsOperation = false ↔ 9 ≤ (opField w).toNat := by
  have hop : (opField w).toNat < 16 := (opField w).isLt
  unfold decodeCommand
  generalize (opField w).toNat = op at hop
  interval_cases op <;> simp [Instr.selectsOperation]

/-- An instruction that selects no operation raises `IllegalOperation` and does nothing else. -/
theorem exec_of_not_selectsOperation {i : Instr} (h : i.selectsOperation = false) (s : State) :
    exec i s = raise .illegalOperation s := by
  cases i with
  | reserved9 | reservedA | reservedB | reservedC | reservedD | reservedE | reservedF => rfl
  | sizeof | encode | decode | marker | zzenc | zzdec | encodes | decodes | sizeofs => cases h
  | wireL1 | wireL2 | wireL3 | wireL4 | wireL5 | wireL6 | wireL7 | wireL8 | wireL9 => cases h

/-- Settles O42: the reserved instructions, and the words with `OP` 9 or more, are those that select no operation. -/
theorem reservedCodesFail : Obligations.ReservedCodesFail := by
  refine ⟨fun o s i hi => ?_, fun w s hw => ?_⟩
  · have hsel : i.selectsOperation = false := by
      rcases hi with rfl | rfl | rfl | rfl | rfl | rfl | rfl <;> rfl
    exact exec_of_not_selectsOperation hsel s
  · have hsel := (decodeCommand_selectsOperation_eq_false_iff w).mpr (opField_toNat w ▸ hw)
    exact exec_of_not_selectsOperation hsel s

end Sys2Proof.Proofs
end

section
/-! SUPPORT. The nine classes of first byte (R61): each row of the table covers the bytes with its count of leading 1-bits. -/

namespace Sys2Proof.Proofs

open Sys2Proof Sys2Proof.Machine

/-- A row covers a byte exactly when the byte has the row's count of leading 1-bits. -/
theorem wireRow_covers_eq : ∀ r ∈ wireRows, ∀ b : Byte, r.covers b = (r.extra == clo8 b) := by decide

/-- Among the nine rows one has `e` extra bytes, for `e` in 0 to 8. -/
theorem wireRows_filter_extra {e : Nat} (he : e ≤ 8) :
    (wireRows.filter fun r => r.extra == e).map WireRow.extra = [e] := by
  interval_cases e <;> rfl

/-- The count of leading 1-bits, with the range of bytes that have it (the table's last column). -/
theorem clo8_cases (b : Byte) :
    (clo8 b = 0 ∧ b.toNat ≤ 0x7F) ∨ (clo8 b = 1 ∧ 0x80 ≤ b.toNat ∧ b.toNat ≤ 0xBF)
    ∨ (clo8 b = 2 ∧ 0xC0 ≤ b.toNat ∧ b.toNat ≤ 0xDF) ∨ (clo8 b = 3 ∧ 0xE0 ≤ b.toNat ∧ b.toNat ≤ 0xEF)
    ∨ (clo8 b = 4 ∧ 0xF0 ≤ b.toNat ∧ b.toNat ≤ 0xF7) ∨ (clo8 b = 5 ∧ 0xF8 ≤ b.toNat ∧ b.toNat ≤ 0xFB)
    ∨ (clo8 b = 6 ∧ 0xFC ≤ b.toNat ∧ b.toNat ≤ 0xFD) ∨ (clo8 b = 7 ∧ b.toNat = 0xFE)
    ∨ (clo8 b = 8 ∧ b.toNat = 0xFF) := by
  have hb := b.isLt
  unfold clo8
  simp only [BitVec.lt_def, BitVec.toNat_ofNat]
  split_ifs <;> omega

/-- Settles O4: the rows that cover a byte are those with its count of leading 1-bits, and the ranges of `clo8_cases` do not
overlap. -/
theorem firstByteClassesPartition : Obligations.FirstByteClassesPartition := by
  intro b
  constructor
  · rw [List.filter_congr fun r hr => wireRow_covers_eq r hr b, wireRows_filter_extra (clo8_le b)]
  · have hcases := clo8_cases b
    omega

end Sys2Proof.Proofs
end

section
/-! SUPPORT. The fields of a response word and the payload beside it (R73, R180). -/

namespace Sys2Proof.Proofs

open Sys2Proof Sys2Proof.Machine

/-- `STATUS` of a response word: it lies where `OP` lies in a command word. -/
theorem responseWord_status (d : Nat) (r : Response) : (r.word d).extractLsb' 64 4 = r.status :=
  opField_commandWord r.status (r.resultField d)

/-- `RESULT` of a response word: it lies where `OPERAND` lies in a command word. -/
theorem responseWord_resultField (d : Nat) (r : Response) : (r.word d).extractLsb' 0 64 = r.resultField d :=
  operandField_commandWord r.status (r.resultField d)

/-- The codes of the conditions run from 1 to 4, so none is the status of an `Ok`. -/
theorem condition_code_bounds (c : Condition) : 1 ≤ c.code.toNat ∧ c.code.toNat ≤ 4 := by
  cases c <;> simp [Condition.code]

/-- A response that is no `IoFailure` has no payload. -/
theorem response_info_eq_none {r : Response} (p : IoInfo) (h : ∀ token, r ≠ .fail (.ioFailure token)) :
    r.info p = none := by
  match r with
  | .ok _ => rfl
  | .fail (.ioFailure token) => exact absurd rfl (h token)
  | .fail .unexpectedEndOfStream | .fail .illegalOperation | .fail .operandRange => rfl

/-- Settles O45, field by field. -/
theorem responseWordFields : Obligations.ResponseWordFields := by
  intro d v c r p
  obtain ⟨hlow, hhigh⟩ := condition_code_bounds c
  refine ⟨responseWord_status d _, responseWord_resultField d _, responseWord_status d _, hlow, hhigh, ?_,
    response_info_eq_none p⟩
  rintro token rfl
  rfl

end Sys2Proof.Proofs
end

section
/-! SUPPORT. Counting leading zeros (R90, R91): the count places a value between two powers of 2. -/

namespace Sys2Proof.Proofs

open Sys2Proof Sys2Proof.Machine

/-! ### `clz64` -/

/-- A value other than 0 has at most 63 leading zeros, and lies between the two powers of 2 that its highest 1-bit gives. -/
theorem clz64_bounds {x : Word} (h : 1 ≤ x.toNat) :
    clz64 x ≤ 63 ∧ 2 ^ (63 - clz64 x) ≤ x.toNat ∧ x.toNat < 2 ^ (64 - clz64 x) := by
  obtain ⟨-, -, hspec⟩ := leadingZeros_spec x 64 le_rfl
  rw [Nat.mod_eq_of_lt x.isLt] at hspec
  obtain ⟨hlow, hhigh, hlt⟩ := hspec (by omega)
  rw [Nat.sub_right_comm] at hlow
  exact ⟨Nat.le_of_lt_succ hlt, hlow, hhigh⟩

/-- The number of the highest 1-bit is the logarithm. -/
theorem log_two_toNat {x : Word} (h : 1 ≤ x.toNat) : Nat.log 2 x.toNat = 63 - clz64 x := by
  obtain ⟨hle, hlow, hhigh⟩ := clz64_bounds h
  rw [show 64 - clz64 x = 63 - clz64 x + 1 by omega] at hhigh
  exact Nat.log_eq_of_pow_le_of_lt_pow hlow hhigh

/-- Settles O5: the logarithm counts from bit 0 what `clz64` counts from bit 63. -/
theorem leadingZerosFromLogarithm : Obligations.LeadingZerosFromLogarithm := by
  refine ⟨fun x h => ?_, rfl, rfl, rfl, rfl⟩
  have hle := (clz64_bounds h).1
  rw [log_two_toNat h, Nat.sub_sub_self hle]
  exact ⟨rfl, hle⟩

/-! ### `bitlen64` -/

/-- `x OR 1` is not 0, so `bitlen64` uses `clz64` only where it has a logarithm. -/
theorem one_le_or_one (x : Word) : 1 ≤ (x ||| 1#64).toNat := by
  rw [BitVec.toNat_or]
  exact Nat.right_le_or

/-- Setting bit 0 changes no other bit, so it takes a value other than 0 past no power of 2. -/
theorem two_pow_le_or_one_iff {x : Word} (h : 1 ≤ x.toNat) (k : Nat) :
    2 ^ k ≤ (x ||| 1#64).toNat ↔ 2 ^ k ≤ x.toNat := by
  have hhalf : (x ||| 1#64).toNat / 2 = x.toNat / 2 := by
    rw [BitVec.toNat_or, Nat.or_div_two]
    exact Nat.or_zero _
  have hone := one_le_or_one x
  cases k with
  | zero => exact iff_of_true hone h
  | succ k => rw [pow_succ]; omega

/-- A value takes 1 to 64 bits. -/
theorem bitlen64_bounds (x : Word) : 1 ≤ bitlen64 x ∧ bitlen64 x ≤ 64 := by
  have hle := (clz64_bounds (one_le_or_one x)).1
  unfold bitlen64
  omega

/-- A value other than 0 lies between the two powers of 2 that its bit length gives. -/
theorem two_pow_bitlen64_bounds {x : Word} (h : 1 ≤ x.toNat) :
    2 ^ (bitlen64 x - 1) ≤ x.toNat ∧ x.toNat < 2 ^ bitlen64 x := by
  obtain ⟨-, hlow, hhigh⟩ := clz64_bounds (one_le_or_one x)
  rw [two_pow_le_or_one_iff h] at hlow
  rw [← not_le, two_pow_le_or_one_iff h, not_le] at hhigh
  unfold bitlen64
  rw [Nat.sub_right_comm]
  exact ⟨hlow, hhigh⟩

/-- Settles O6: the first conjunct is the definition, the bounds are those of `clz64` at `x OR 1`. -/
theorem bitLengthBoundsTheValue : Obligations.BitLengthBoundsTheValue :=
  ⟨fun x => ⟨rfl, bitlen64_bounds x⟩, fun _ h => two_pow_bitlen64_bounds h, rfl, rfl, rfl, rfl, rfl, rfl, rfl⟩

end Sys2Proof.Proofs
end

section
/-! SUPPORT. Counting leading ones (R92): R92's table agrees with the leading zeros of the complement, and what those count is said
bit by bit. -/

namespace Sys2Proof.Proofs

open Sys2Proof Sys2Proof.Machine

/-- At least `m` of the low `k` bits lead with 0 exactly when the top `m` of them are 0. -/
theorem le_leadingZeros_iff (x : Word) {k m : Nat} (h : m ≤ k) :
    m ≤ leadingZeros x k ↔ ∀ j, k - m ≤ j → j < k → x.getLsbD j = false := by
  induction k generalizing m with
  | zero => simp [Nat.le_zero.mp h]
  | succ k ih =>
    cases m with
    | zero => exact iff_of_true (Nat.zero_le _) fun j hj hjk => absurd hjk (by omega)
    | succ m =>
      by_cases hk : x.getLsbD k = true
      · simp only [leadingZeros, hk, if_true]
        refine ⟨fun hm => absurd hm (by omega), fun hz => ?_⟩
        rw [hz k (by omega) (by omega)] at hk
        cases hk
      · simp only [leadingZeros, hk, if_false, Nat.add_le_add_iff_right, Bool.false_eq_true]
        rw [ih (by omega)]
        constructor
        · intro hz j hj hjk
          rcases Nat.lt_succ_iff_lt_or_eq.mp hjk with hlt | rfl
          · exact hz j (by omega) hlt
          · exact Bool.eq_false_of_not_eq_true hk
        · intro hz j hj hjk
          exact hz j (by omega) (by omega)

/-- Zero bits above the low `k` are all counted. -/
theorem leadingZeros_add {x : Word} {k : Nat} (h : ∀ j, k ≤ j → x.getLsbD j = false) (m : Nat) :
    leadingZeros x (k + m) = leadingZeros x k + m := by
  induction m with
  | zero => rfl
  | succ m ih =>
    rw [← Nat.add_assoc, leadingZeros, h (k + m) (by omega), ih]
    rfl

/-- A byte on 64 bits has 56 leading zeros more than on 8. -/
theorem clz64_setWidth_byte (b : Byte) : clz64 (b.setWidth 64) = leadingZeros (b.setWidth 64) 8 + 56 := by
  refine leadingZeros_add (fun j hj => ?_) 56
  rw [BitVec.getLsbD_setWidth, BitVec.getLsbD_of_ge b j hj, Bool.and_false]

/-- R92's table is the count of leading zeros of the complement, byte by byte. -/
theorem clo8_eq_leadingZeros : ∀ b : Byte, clo8 b = leadingZeros ((~~~ b).setWidth 64) 8 := by decide

/-- Bit `j` of the complement of a byte, on 64 bits. -/
theorem getLsbD_not_setWidth (b : Byte) {j : Nat} (h : j < 8) : ((~~~ b).setWidth 64).getLsbD j = !b.getLsbD j := by
  simp [h, show j < 64 by omega]

/-- Settles O7: a leading 1-bit of a byte is a leading 0-bit of its complement. -/
theorem leadingOnesIsTheLargestCount : Obligations.LeadingOnesIsTheLargestCount := by
  refine ⟨fun b e he => ?_, fun b => ⟨clo8_le b, ?_⟩⟩
  · rw [clo8_eq_leadingZeros, le_leadingZeros_iff _ he]
    refine forall₂_congr fun j _ => ?_
    constructor
    · intro hz hj
      simpa [getLsbD_not_setWidth b (Nat.lt_succ_of_le hj)] using hz (Nat.lt_succ_of_le hj)
    · intro ho hj
      rw [getLsbD_not_setWidth b hj, ho (Nat.le_of_lt_succ hj)]
      rfl
  · rw [clz64_setWidth_byte, clo8_eq_leadingZeros, Nat.add_sub_cancel]

end Sys2Proof.Proofs
end

section
/-! SUPPORT. The size of a value (R93, R94, R96, R97): a length fits exactly when it is no smaller than `vintSizeOf`. -/

namespace Sys2Proof.Proofs

open Sys2Proof Sys2Proof.Machine Sys2Proof.Spec

/-- The capacity of a form of at most eight bytes. -/
theorem cap_of_le_eight {n : Nat} (h : n ≤ 8) : cap n = 7 * n :=
  if_neg (by omega)

/-- The form of the length `vintSizeOf` gives holds the value. -/
theorem toNat_lt_two_pow_cap (v : Word) : v.toNat < 2 ^ cap (vintSizeOf v) := by
  obtain ⟨_, rfl, -, -, hfit, -⟩ := vintSizeOf_cases v
  exact hfit

/-- A form holds the value exactly when its length is at least `vintSizeOf`. -/
theorem vintSizeOf_le_iff (v : Word) {m : Nat} (h1 : 1 ≤ m) (h9 : m ≤ 9) :
    vintSizeOf v ≤ m ↔ v.toNat < 2 ^ cap m := by
  constructor
  · intro hle
    exact (toNat_lt_two_pow_cap v).trans_le (Nat.pow_le_pow_right Nat.two_pos (cap_mono hle h9))
  · intro hfit
    obtain ⟨k, hk, hk1, hk9, -, hlow⟩ := vintSizeOf_cases v
    rcases hlow with rfl | hlow
    · omega
    · by_contra hlt
      have hpow : 2 ^ cap m ≤ 2 ^ cap (k - 1) := Nat.pow_le_pow_right Nat.two_pos (cap_mono (by omega) (by omega))
      omega

/-- `vintSizeOf` meets R94's contract. -/
theorem isLeastLength_vintSizeOf (v : Word) : IsLeastLength v (vintSizeOf v) := by
  obtain ⟨h1, h9⟩ := vintSizeOf_bounds v
  refine ⟨h1, h9, toNat_lt_two_pow_cap v, fun m hm1 hm => ?_⟩
  rw [← not_lt, ← vintSizeOf_le_iff v hm1 (by omega)]
  exact not_le.mpr hm

/-- Settles O8: the contract for every value, and the capacities by evaluation. -/
theorem sizeOfIsTheLeastFittingLength : Obligations.SizeOfIsTheLeastFittingLength :=
  ⟨isLeastLength_vintSizeOf, rfl⟩

/-- Settles O12: SIZEOF's next state is its response and nothing else, and `vintSizeOf` is the length it answers. -/
theorem sizeofAnswersTheLength : Obligations.SizeofAnswersTheLength :=
  fun v _ => ⟨vintSizeOf v, isLeastLength_vintSizeOf v, rfl⟩

/-! ### The stated properties -/

/-- A larger value has no shorter form. -/
theorem vintSizeOf_mono {a b : Word} (h : a.toNat ≤ b.toNat) : vintSizeOf a ≤ vintSizeOf b := by
  obtain ⟨h1, h9⟩ := vintSizeOf_bounds b
  exact (vintSizeOf_le_iff a h1 h9).mpr (h.trans_lt (toNat_lt_two_pow_cap b))

/-- Only the values that need more than 56 bits have a form of nine bytes. -/
theorem vintSizeOf_eq_nine_iff (v : Word) : vintSizeOf v = 9 ↔ 2 ^ 56 ≤ v.toNat := by
  have h9 := (vintSizeOf_bounds v).2
  have h8 : vintSizeOf v ≤ 8 ↔ v.toNat < 2 ^ 56 := vintSizeOf_le_iff v (by omega) (by omega)
  omega

/-- A value at or above the capacity of the length before `k`, and below that of `k`, has a form of `k` bytes. -/
theorem vintSizeOf_eq_of_bounds {v : Word} {k : Nat} (h1 : 1 ≤ k) (h9 : k ≤ 9) (hlow : 2 ^ cap (k - 1) ≤ v.toNat)
    (hhigh : v.toNat < 2 ^ cap k) : vintSizeOf v = k := by
  have hle := (vintSizeOf_le_iff v h1 h9).mpr hhigh
  have hsize := (vintSizeOf_bounds v).1
  by_contra hne
  have hfit := (vintSizeOf_le_iff v (m := k - 1) (by omega) (by omega)).mp (by omega)
  omega

/-- The largest value of `7k` bits still fits in `k` bytes. -/
theorem vintSizeOf_two_pow_sub_one {k : Nat} (h1 : 1 ≤ k) (h8 : k ≤ 8) :
    vintSizeOf (BitVec.ofNat 64 (2 ^ (7 * k) - 1)) = k := by
  have hword : 2 ^ (7 * k) < 2 ^ 64 := Nat.pow_lt_pow_right Nat.one_lt_two (by omega)
  have hval : (BitVec.ofNat 64 (2 ^ (7 * k) - 1)).toNat = 2 ^ (7 * k) - 1 := by
    rw [BitVec.toNat_ofNat, Nat.mod_eq_of_lt (by omega)]
  have hlow : 2 ^ (7 * (k - 1)) < 2 ^ (7 * k) := Nat.pow_lt_pow_right Nat.one_lt_two (by omega)
  apply vintSizeOf_eq_of_bounds h1 (by omega) <;> rw [hval, cap_of_le_eight (by omega)]
  · exact Nat.le_sub_one_of_lt hlow
  · exact Nat.sub_one_lt_of_lt hlow

/-- The smallest value of more than `7k` bits needs `k + 1` bytes. -/
theorem vintSizeOf_two_pow {k : Nat} (h8 : k ≤ 8) : vintSizeOf (BitVec.ofNat 64 (2 ^ (7 * k))) = k + 1 := by
  have hval : (BitVec.ofNat 64 (2 ^ (7 * k))).toNat = 2 ^ (7 * k) := by
    rw [BitVec.toNat_ofNat, Nat.mod_eq_of_lt (Nat.pow_lt_pow_right Nat.one_lt_two (by omega))]
  have hcap : 7 * k < cap (k + 1) := by unfold cap; split_ifs <;> omega
  apply vintSizeOf_eq_of_bounds (by omega) (by omega) <;> rw [hval]
  · rw [Nat.add_sub_cancel, cap_of_le_eight h8]
  · exact Nat.pow_lt_pow_right Nat.one_lt_two hcap

/-- Settles O10, property by property. -/
theorem sizeOfStatedProperties : Obligations.SizeOfStatedProperties :=
  ⟨rfl, fun _ _ => vintSizeOf_mono, (vintSizeOf_eq_nine_iff _).mpr (by decide),
    fun _ h1 h8 => ⟨vintSizeOf_two_pow_sub_one h1 h8, vintSizeOf_two_pow h8⟩, vintSizeOf_eq_nine_iff⟩

end Sys2Proof.Proofs
end

section
/-! SUPPORT. The first byte of an encoded form (R98, R113): the marker above value bits that leave the bit below it 0. -/

namespace Sys2Proof.Proofs

open Sys2Proof Sys2Proof.Machine

/-- The value bits of the first byte of a form with `e` extra bytes: none when `e` is 8 (R113). -/
def topBits (v : Word) (e : Nat) : Byte := if e ≤ 7 then byteOf v e else 0#8

/-- A form is its first byte and its extra bytes, in the one-byte form too, where the marker is 0. -/
theorem vintEncode_eq_cons {v : Word} {e : Nat} (h : vintSizeOf v = e + 1) :
    vintEncode v = (marker e ||| topBits v e) :: extraBytes v e := by
  simp only [vintEncode, h, Nat.add_sub_cancel]
  split
  next h0 =>
    subst h0
    rw [show marker 0 = 0#8 from rfl, BitVec.zero_or]
    rfl
  next => rfl

/-- The value bits of the first byte stay below the 0-bit after the marker's ones. -/
theorem topBits_lt {v : Word} {e : Nat} (h : vintSizeOf v = e + 1) : (topBits v e).toNat < 2 ^ (7 - e) := by
  unfold topBits
  split
  next he =>
    have hfit : v.toNat < 2 ^ (7 * (e + 1)) := by
      rw [← cap_of_le_eight (by omega), ← h]
      exact toNat_lt_two_pow_cap v
    rw [byteOf_toNat]
    refine (Nat.mod_le _ _).trans_lt (Nat.div_lt_of_lt_mul ?_)
    rw [← pow_add]
    exact hfit.trans_le (Nat.pow_le_pow_right Nat.two_pos (by omega))
  next => exact Nat.two_pow_pos _

/-- The marker as a number: `e` ones at the top of a byte. -/
theorem marker_toNat {e : Nat} (h : e ≤ 8) : (marker e).toNat = 2 ^ 8 - 2 ^ (8 - e) := by
  rw [marker, BitVec.toNat_not, valueMask_toNat h]
  have := Nat.two_pow_pos (8 - e)
  omega

/-- The marker above value bits is their sum, as the two share no bit (R114). -/
theorem marker_or_toNat {e : Nat} {t : Byte} (he : e ≤ 8) (ht : t.toNat < 2 ^ (8 - e)) :
    (marker e ||| t).toNat = 2 ^ 8 - 2 ^ (8 - e) + t.toNat := by
  rw [← BitVec.add_eq_or_of_and_eq_zero _ _ (marker_and e he t ht),
    BitVec.toNat_add_of_and_eq_zero (marker_and e he t ht), marker_toNat he]

/-- `clo8` counts the marker's ones back when the value bits leave the next bit 0. -/
theorem clo8_marker_or {e : Nat} {t : Byte} (he : e ≤ 8) (ht : t.toNat < 2 ^ (7 - e)) : clo8 (marker e ||| t) = e := by
  have hval := marker_or_toNat he (ht.trans_le (Nat.pow_le_pow_right Nat.two_pos (by omega)))
  have hcases := clo8_cases (marker e ||| t)
  interval_cases e <;> omega

/-- Settles O11: the marker has a 1-bit for each extra byte. -/
theorem firstByteTellsTheLength : Obligations.FirstByteTellsTheLength := by
  intro v
  obtain ⟨h1, h9⟩ := vintSizeOf_bounds v
  obtain ⟨e, he⟩ := Nat.exists_eq_add_of_le' h1
  have hclo := clo8_marker_or (by omega) (topBits_lt he)
  exact ⟨_, _, vintEncode_eq_cons he, by omega, by rw [hclo, extraBytes_length]⟩

end Sys2Proof.Proofs
end

section
/-! SUPPORT. The marker and MARKER (R110 to R112). -/

namespace Sys2Proof.Proofs

open Sys2Proof Sys2Proof.Machine

/-- `clo8` counts the ones of a bare marker back. -/
theorem clo8_marker {e : Nat} (h : e ≤ 8) : clo8 (marker e) = e := by
  simpa using clo8_marker_or (t := 0#8) h (Nat.two_pow_pos _)

/-- Settles O13: the marker's number shows its ones and zeros, and `clo8` counts the ones. -/
theorem markerHasLeadingOnes : Obligations.MarkerHasLeadingOnes :=
  fun _ he => ⟨rfl, marker_toNat he, clo8_marker he⟩

/-- The marker zero-extended is the word of its number. -/
theorem marker_setWidth {e : Nat} (h : e ≤ 8) : (marker e).setWidth 64 = BitVec.ofNat 64 (2 ^ 8 - 2 ^ (8 - e)) := by
  rw [← marker_toNat h, BitVec.ofNat_toNat]

/-- MARKER in its domain answers the marker byte, zero-extended (R111). -/
theorem exec_marker_of_le {extra : Word} (h : extra.toNat ≤ 8) (s : State) :
    exec (.marker extra) s = .next (s.respond (.ok ((marker extra.toNat).setWidth 64))) :=
  if_neg (Nat.not_lt.mpr h)

/-- MARKER above its domain fails with `OperandRange` (R112). -/
theorem exec_marker_of_gt {extra : Word} (h : 8 < extra.toNat) (s : State) :
    exec (.marker extra) s = .next (s.respond (.fail .operandRange)) :=
  if_pos h

/-- Settles O14: the two sides of MARKER's check of its operand; neither does more than respond. -/
theorem markerAnswersOrFails : Obligations.MarkerAnswersOrFails := by
  refine fun extra s => ⟨fun h => ?_, fun h => exec_marker_of_gt h s⟩
  rw [exec_marker_of_le h, marker_setWidth h]
  rfl

end Sys2Proof.Proofs
end

section
/-! SUPPORT. The bytes of an encoded form (R113, R114): the first holds the quotient of the value by `2^(8e)`, below the terminator,
and the others the bytes of the remainder. -/

namespace Sys2Proof.Proofs

open Sys2Proof Sys2Proof.Machine

/-- What is left of a value above its extra bytes fits below the terminator of the first byte. -/
theorem toNat_div_lt {v : Word} {e : Nat} (h : vintSizeOf v = e + 1) : v.toNat / 2 ^ (8 * e) < 2 ^ (7 - e) := by
  have hcap : cap (e + 1) ≤ 8 * e + (7 - e) := by
    have := (vintSizeOf_bounds v).2
    unfold cap
    split_ifs <;> omega
  apply Nat.div_lt_of_lt_mul
  rw [← pow_add]
  exact (h ▸ toNat_lt_two_pow_cap v).trans_le (Nat.pow_le_pow_right Nat.two_pos hcap)

/-- The value bits of the first byte are all that is left of the value above the extra bytes. -/
theorem topBits_toNat {v : Word} {e : Nat} (h : vintSizeOf v = e + 1) : (topBits v e).toNat = v.toNat / 2 ^ (8 * e) := by
  have hlt := toNat_div_lt h
  unfold topBits
  split
  next he =>
    exact (byteOf_toNat v e).trans
      (Nat.mod_eq_of_lt (hlt.trans_le (Nat.pow_le_pow_right (j := 8) Nat.two_pos (by omega))))
  next he =>
    rw [show 7 - e = 0 by omega, pow_zero] at hlt
    exact (Nat.lt_one_iff.mp hlt).symm

/-- The value bits of the first byte stay below the marker's ones. -/
theorem topBits_lt_two_pow {v : Word} {e : Nat} (h : vintSizeOf v = e + 1) : (topBits v e).toNat < 2 ^ (8 - e) :=
  (topBits_lt h).trans_le (Nat.pow_le_pow_right Nat.two_pos (by omega))

/-- Byte `i` of a value is the quotient by `2^(8i)`, cut to a byte. -/
theorem byteOf_eq_ofNat (v : Word) (i : Nat) : byteOf v i = BitVec.ofNat 8 (v.toNat / 2 ^ (8 * i)) := by
  apply BitVec.eq_of_toNat_eq
  rw [byteOf_toNat, BitVec.toNat_ofNat]

/-- The first byte of a form as a number: the marker and the value bits left for it. -/
theorem firstByte_toNat {v : Word} {e : Nat} (h : vintSizeOf v = e + 1) :
    (marker e ||| topBits v e).toNat = 2 ^ 8 - 2 ^ (8 - e) + v.toNat / 2 ^ (8 * e) := by
  have he := (vintSizeOf_bounds v).2
  rw [marker_or_toNat (by omega) (topBits_lt_two_pow h), topBits_toNat h]

/-- The first byte of a form announces its extra bytes. -/
theorem clo8_firstByte {v : Word} {e : Nat} (h : vintSizeOf v = e + 1) : clo8 (marker e ||| topBits v e) = e := by
  have he := (vintSizeOf_bounds v).2
  exact clo8_marker_or (by omega) (topBits_lt h)

/-- Settles O15: the length, an extra byte, and the first byte. -/
theorem encodedFormLayout : Obligations.EncodedFormLayout := by
  intro v e h
  refine ⟨(vintEncode_length v).trans h, fun i h1 hi => ?_, ?_⟩ <;> rw [vintEncode_eq_cons h]
  · obtain ⟨j, rfl⟩ := Nat.exists_eq_add_of_le' h1
    rw [List.getElem?_cons_succ, extraBytes_getElem? v e j hi, byteOf_eq_ofNat, Nat.sub_sub, Nat.add_comm 1 j]
  · rw [List.getElem?_cons_zero, ← firstByte_toNat h, BitVec.ofNat_toNat, BitVec.setWidth_eq]

/-- The bit after the marker's ones is 0. -/
theorem marker_getLsbD_terminator : ∀ e ≤ 7, (marker e).getLsbD (7 - e) = false := by decide

/-- The terminator stays 0 under the value bits. -/
theorem firstByte_getLsbD_terminator {v : Word} {e : Nat} (h : vintSizeOf v = e + 1) (he : e ≤ 7) :
    (marker e ||| topBits v e).getLsbD (7 - e) = false := by
  rw [BitVec.getLsbD_or, marker_getLsbD_terminator e he, Bool.false_or]
  exact Nat.testBit_lt_two_pow (topBits_lt h)

/-- The value bits and the marker share no bit. -/
theorem byteOf_and_marker {v : Word} {e : Nat} (h : vintSizeOf v = e + 1) (he : e ≤ 7) :
    byteOf v e &&& marker e = 0#8 := by
  have htop : topBits v e = byteOf v e := if_pos he
  rw [BitVec.and_comm, ← htop]
  exact marker_and e (by omega) _ (topBits_lt_two_pow h)

/-- With seven or eight extra bytes the first byte has no value bit. -/
theorem firstByte_eq_marker {v : Word} {e : Nat} (h : vintSizeOf v = e + 1) (he : 7 ≤ e) :
    marker e ||| topBits v e = marker e := by
  have hlt := topBits_lt h
  rw [Nat.sub_eq_zero_of_le he, pow_zero, Nat.lt_one_iff] at hlt
  rw [BitVec.eq_of_toNat_eq (y := 0#8) hlt, BitVec.or_zero]

/-- Settles O16, clause by clause, for the first byte as marker and value bits. -/
theorem firstByteIsWellFormed : Obligations.FirstByteIsWellFormed := by
  intro v e h
  refine ⟨_, _, vintEncode_eq_cons h, clo8_firstByte h, fun _ h7 => ?_, ?_, ?_, ?_⟩
  · exact ⟨toNat_div_lt h, byteOf_and_marker h h7, firstByte_getLsbD_terminator h h7⟩
  · rintro rfl
    exact firstByte_eq_marker h le_rfl
  · rintro rfl
    exact firstByte_eq_marker h (by decide)
  · rintro rfl
    have hval : (marker 0 ||| topBits v 0).toNat = v.toNat := by simp [firstByte_toNat h]
    have hlt := toNat_div_lt h
    rw [Nat.mul_zero, pow_zero, Nat.div_one] at hlt
    exact ⟨hval, hval ▸ hlt⟩

end Sys2Proof.Proofs
end

section
/-! SUPPORT. The forms are canonical (R117): the decoder takes a value's form back off the front of any list, so no form begins
another, and what an operation that answers `Ok` has written is a form. -/

namespace Sys2Proof.Proofs

open Sys2Proof Sys2Proof.Machine Sys2Proof.Spec

/-! ### The decoder inverts the encoder -/

/-- The extra bytes of a value stand for its remainder by `2^(8e)`. -/
theorem beValue_extraBytes (v : Word) (e : Nat) : beValue (extraBytes v e) = v.toNat % 2 ^ (8 * e) := by
  induction e with
  | zero => rw [Nat.mul_zero, pow_zero, Nat.mod_one]; rfl
  | succ e ih =>
    have hpow : 2 ^ (8 * (e + 1)) = 2 ^ (8 * e) * 256 := pow_add 2 (8 * e) 8
    rw [extraBytes, beValue, extraBytes_length, byteOf_toNat, ih, hpow, Nat.mod_mul]
    ring

/-- The value bits of the first byte are what the marker leaves of it. -/
theorem firstByte_mod {v : Word} {e : Nat} (h : vintSizeOf v = e + 1) :
    (marker e ||| topBits v e).toNat % 2 ^ (8 - e) = v.toNat / 2 ^ (8 * e) := by
  have he := (vintSizeOf_bounds v).2
  have hmul : 2 ^ 8 - 2 ^ (8 - e) = 2 ^ (8 - e) * (2 ^ e - 1) := by
    rw [Nat.mul_sub_one, ← pow_add, Nat.sub_add_cancel (by omega)]
  rw [firstByte_toNat h, hmul, Nat.mul_add_mod, ← topBits_toNat h, Nat.mod_eq_of_lt (topBits_lt_two_pow h)]

/-- R66's sum of a value's form is the value: quotient and remainder by `2^(8e)`. -/
theorem formValue_encoded {v : Word} {e : Nat} (h : vintSizeOf v = e + 1) :
    formValue e (marker e ||| topBits v e) (extraBytes v e) = v.toNat := by
  rw [formValue_of_length _ (extraBytes_length v e), firstByte_mod h, beValue_extraBytes, extraBytes_length,
    Nat.div_add_mod']

/-- Decoding a list that begins with a value's form gives the value and the length of the form. -/
theorem vintDecode_vintEncode_append (v : Word) (rest : List Byte) :
    vintDecode (vintEncode v ++ rest) = some (v, vintSizeOf v) := by
  obtain ⟨e, h⟩ := Nat.exists_eq_add_of_le' (vintSizeOf_bounds v).1
  have he := (vintSizeOf_bounds v).2
  have hlen : (extraBytes v e).length = clo8 (marker e ||| topBits v e) := by
    rw [extraBytes_length, clo8_firstByte h]
  rw [vintEncode_eq_cons h, vintDecode_form_append hlen, clo8_firstByte h,
    foldBytes_firstByteValue _ (by omega) (extraBytes_length v e), formValue_encoded h, BitVec.ofNat_toNat,
    BitVec.setWidth_eq, h, Nat.add_comm]

/-- No form is the beginning of the form of another value: the decoder would read both values off the longer one. -/
theorem eq_of_vintEncode_prefix {a b : Word} (h : vintEncode a <+: vintEncode b) : a = b := by
  obtain ⟨rest, hrest⟩ := h
  have ha := vintDecode_vintEncode_append a rest
  have hb := vintDecode_vintEncode_append b []
  rw [List.append_nil, ← hrest, ha] at hb
  cases hb
  rfl

/-- Only a form of nine bytes begins with 0xFF. -/
theorem vintSizeOf_of_head? {v : Word} (h : (vintEncode v).head? = some 0xFF#8) : vintSizeOf v = 9 := by
  obtain ⟨e, he⟩ := Nat.exists_eq_add_of_le' (vintSizeOf_bounds v).1
  rw [vintEncode_eq_cons he, List.head?_cons, Option.some_inj] at h
  have hclo := clo8_firstByte he
  rw [h] at hclo
  rw [he, ← hclo]
  rfl

/-! ### What an operation writes -/

/-- A first byte leaves the sink alone. -/
theorem runFirstByte_snk {e : Nat} (he : e ≤ 8) {b : Byte} {s t : State} (h : runFirstByte e b s = .next t) :
    t.snk = s.snk := by
  unfold runFirstByte at h
  rcases afterFirstByte_cases he b s with ⟨-, -, hrun⟩ | ⟨-, c, -, hrun⟩ | ⟨-, -, hrun⟩ <;>
    · rw [hrun] at h
      cases h
      rfl

/-- An instruction that uses the decoder's working values is DECODE, DECODES, or a first byte. -/
theorem exec_of_usesDecoder {i : Instr} (h : usesDecoder i = true) :
    (∃ o, i = .decode o ∨ i = .decodes o) ∨ ∃ e b, e ≤ 8 ∧ ∀ s, exec i s = runFirstByte e b s := by
  cases i with
  | decode o => exact .inl ⟨o, .inl rfl⟩
  | decodes o => exact .inl ⟨o, .inr rfl⟩
  | wireL1 => exact .inr ⟨0, _, by decide, fun _ => rfl⟩
  | wireL2 => exact .inr ⟨1, _, by decide, fun _ => rfl⟩
  | wireL3 => exact .inr ⟨2, _, by decide, fun _ => rfl⟩
  | wireL4 => exact .inr ⟨3, _, by decide, fun _ => rfl⟩
  | wireL5 => exact .inr ⟨4, _, by decide, fun _ => rfl⟩
  | wireL6 => exact .inr ⟨5, _, by decide, fun _ => rfl⟩
  | wireL7 => exact .inr ⟨6, _, by decide, fun _ => rfl⟩
  | wireL8 => exact .inr ⟨7, _, by decide, fun _ => rfl⟩
  | wireL9 => exact .inr ⟨8, _, by decide, fun _ => rfl⟩
  | sizeof | encode | marker | zzenc | zzdec | encodes | sizeofs | reserved9 | reservedA | reservedB | reservedC
  | reservedD | reservedE | reservedF => cases h

/-- Only ENCODE and ENCODES touch the sink (R40). -/
theorem exec_snk_unchanged {i : Instr} {s t : State} (hw : writesSink i = false) (h : exec i s = .next t) :
    t.snk = s.snk := by
  cases hd : usesDecoder i with
  | false =>
    obtain ⟨r, hr⟩ := exec_eq_respond hd hw s
    cases hr.symm.trans h
    rfl
  | true =>
    rcases exec_of_usesDecoder hd with ⟨o, hi⟩ | ⟨e, b, he, hrun⟩
    · obtain ⟨op, post, out⟩ := decodeOutcome_of_exec hi h
      exact out.snk
    · exact runFirstByte_snk he (b := b) (hrun s ▸ h)

/-- An encode that answers `Ok` has written the whole form. -/
theorem encodeOutcome_out_of_ok {op : StreamOp} {v r : Word} {s t : State} (h : EncodeOutcome op v s t)
    (hr : t.response = some (.ok r)) : t.snk.out = s.snk.out ++ vintEncode v := by
  rcases h.ends with ⟨-, -, hout, -⟩ | ⟨token, -, hfail, -⟩ | ⟨-, hnone, -⟩
  · exact hout
  · cases hfail.symm.trans hr
  · cases hnone.symm.trans hr

/-- An instruction that answers `Ok` has written nothing, or the form of a value. -/
theorem exec_out_of_ok {i : Instr} {s t : State} {r : Word} (h : exec i s = .next t) (hr : t.response = some (.ok r)) :
    t.snk.out = s.snk.out ∨ ∃ v, t.snk.out = s.snk.out ++ vintEncode v := by
  cases hw : writesSink i with
  | false => exact .inl (congrArg Sink.out (exec_snk_unchanged hw h))
  | true =>
    cases i with
    | encode v => exact .inr ⟨_, encodeOutcome_out_of_ok (encodeOutcome_of_exec_encode h) hr⟩
    | encodes n => exact .inr ⟨_, encodeOutcome_out_of_ok (encodeOutcome_of_exec_encodes h) hr⟩
    | _ => cases hw

/-- Settles O17, property by property. -/
theorem encodedFormsAreCanonical : Obligations.EncodedFormsAreCanonical :=
  ⟨vintEncode_length, fun v h => (vintSizeOf_eq_nine_iff v).mp (vintSizeOf_of_head? h), fun _ _ _ _ => exec_out_of_ok,
    fun _ _ h => eq_of_vintEncode_prefix (h ▸ List.prefix_rfl), fun _ _ => eq_of_vintEncode_prefix⟩

end Sys2Proof.Proofs
end

section
/-! SUPPORT. What an encode leaves behind when the sink faults (R118), and in the scratch buffer whatever the sink answers (R116). -/

namespace Sys2Proof.Proofs

open Sys2Proof Sys2Proof.Machine

/-- An encode whose write is answered with a fault passes the payload on, and the sink has kept a first part of the form. -/
theorem encode_of_sink_fault {op : StreamOp} {v : Word} {s : State} {r : Result} {token : IoToken}
    (h : ∃ t, r = .next t ∧ EncodeOutcome op v s t) (hplan : nextAnswer s.snk.plan = .ioFault token) :
    ∃ t k, r = .next t ∧ t.response = some (.fail (.ioFailure token))
      ∧ t.requests = s.requests ++ [.write (vintEncode v)]
      ∧ k ≤ vintSizeOf v ∧ t.snk.out = s.snk.out ++ (vintEncode v).take k := by
  obtain ⟨t, ht, out⟩ := h
  rcases out.ends with ⟨hserved, -⟩ | ⟨token', hfault, hresp, hout, -⟩ | ⟨hsilent, -⟩
  · cases hserved.symm.trans hplan
  · cases hfault.symm.trans hplan
    refine ⟨t, min (Config.snkAfterFail s.draws) (vintSizeOf v), ht, hresp, out.requests, Nat.min_le_right _ _, ?_⟩
    rw [hout, ← vintEncode_length, ← List.take_eq_take_min]
  · cases hsilent.symm.trans hplan

/-- Settles O19: ENCODE is an encode of the value and ENCODES one of the mapped value, so each meets the fault in its one write. -/
theorem encodeReportsSinkFault : Obligations.EncodeReportsSinkFault :=
  fun v s _ hplan =>
    ⟨encode_of_sink_fault (encode_outcome .encode (.inl rfl) v s) hplan,
      encode_of_sink_fault (encode_outcome .encodes (.inr rfl) (zigzagEncode v) s) hplan⟩

/-- ENCODE of a value and ENCODES of one that maps to it do nothing that an encode of it cannot do. -/
theorem encodeOutcome_of_exec {v u : Word} {s t : State}
    (h : exec (.encode v) s = .next t ∧ u = v ∨ exec (.encodes v) s = .next t ∧ u = zigzagEncode v) :
    ∃ op, EncodeOutcome op u s t := by
  rcases h with ⟨h, rfl⟩ | ⟨h, rfl⟩
  · exact ⟨_, encodeOutcome_of_exec_encode h⟩
  · exact ⟨_, encodeOutcome_of_exec_encodes h⟩

/-- Settles O20: the buffer an encode leaves is the form and the old bytes after it, or the old buffer. -/
theorem scratchBufferHoldsTheForm : Obligations.ScratchBufferHoldsTheForm := by
  intro v u s t h
  obtain ⟨op, out⟩ := encodeOutcome_of_exec h
  refine ⟨fun h2 => ?_, fun h1 => ?_⟩
  · have hlen := vintEncode_length u
    rw [out.sb, if_pos h2]
    refine ⟨fun i hi => List.getElem?_append_left (hlen ▸ hi), fun i hi => ?_⟩
    rw [List.getElem?_append_right (hlen ▸ hi), List.getElem?_drop, hlen, Nat.add_sub_cancel' hi]
  · rw [out.sb, if_neg (by omega)]

end Sys2Proof.Proofs
end

section
/-! SUPPORT. The decoder's fold (R132): 64 bits hold the value bits of the first byte and of as many bytes as it announces. -/

namespace Sys2Proof.Proofs

open Sys2Proof Sys2Proof.Machine

/-- Below its marker and terminator a first byte has `7 - EXTRA` value bits, and none when `EXTRA` is 8. -/
theorem firstByteValue_lt : ∀ b : Byte, (firstByteValue b (clo8 b)).toNat < 2 ^ (7 - clo8 b) := by decide

/-- Each byte adds eight bits to the accumulator. -/
theorem foldBytes_lt {acc : Word} {k : Nat} {t : List Byte} (hacc : acc.toNat < 2 ^ k) :
    (foldBytes acc t).toNat < 2 ^ (k + 8 * t.length) := by
  rw [foldBytes_eq_ofNat, BitVec.toNat_ofNat]
  exact (Nat.mod_le _ _).trans_lt (mul_two_pow_add_lt hacc (beValue_lt t))

/-- A step of the fold loses no bit of an accumulator of up to 56 bits. -/
theorem foldBytes_concat_toNat {acc : Word} {u : List Byte} (c : Byte) (h : (foldBytes acc u).toNat < 2 ^ 56) :
    (foldBytes acc (u ++ [c])).toNat = (foldBytes acc u).toNat * 256 + c.toNat := by
  rw [foldBytes_append, foldBytes_cons, foldBytes_nil, shiftLeft_or_byte, BitVec.toNat_ofNat]
  exact Nat.mod_eq_of_lt (mul_two_pow_add_lt (m := 56) (n := 8) h c.isLt)

/-- Settles O23: before the last byte the fold has taken at most `EXTRA - 1` bytes, which leaves room for one more. -/
theorem foldNeverOverflows : Obligations.FoldNeverOverflows := by
  intro b t ht
  have hstart := firstByteValue_lt b
  have he := clo8_le b
  refine ⟨fun _ => hstart, fun h8 => ?_, fun c u hu => ?_, fun h7 => ?_⟩
  · rw [h8] at hstart ⊢
    exact BitVec.eq_of_toNat_eq (Nat.lt_one_iff.mp hstart)
  · subst hu
    rw [List.length_append, List.length_singleton] at ht
    exact foldBytes_concat_toNat c ((foldBytes_lt hstart).trans_le (Nat.pow_le_pow_right Nat.two_pos (by omega)))
  · exact (foldBytes_lt hstart).trans_le (Nat.pow_le_pow_right Nat.two_pos (by omega))

end Sys2Proof.Proofs
end

section
/-! SUPPORT. How a decode ends when the source does not serve a read (R134, R135), and what it has used up when it answers `Ok`
(R136). -/

namespace Sys2Proof.Proofs

open Sys2Proof Sys2Proof.Machine

/-! ### Reads that fail -/

/-- DECODE and DECODES both end with the condition that their decode raises; the ZigZag stage does not run. -/
theorem exec_of_decodeForm_raised {i : Instr} {o : Word} {s u : State} {c : Condition}
    (hi : i = .decode o ∨ i = .decodes o) (h : decodeForm s = .raised c u) :
    ∃ t, exec i s = .next t ∧ t.response = some (.fail c) ∧ t.src = u.src ∧ t.requests = u.requests := by
  rcases hi with rfl | rfl
  · exact ⟨_, congrArg (finish .decode) h, rfl, rfl, rfl⟩
  · have hrun : (decodeForm s).andThen (fun v s => .done (zigzagDecode v) s) = .raised c u := by
      rw [h, Stage.andThen_raised]
    exact ⟨_, congrArg (finish .decodes) hrun, rfl, rfl, rfl⟩

/-- A decode whose first read fails passes the condition on and reads no more. -/
theorem exec_decode_of_first_fails {i : Instr} {o : Word} {s : State} {c : Condition}
    (hi : i = .decode o ∨ i = .decodes o) (hf : s.src.fails 1 c) :
    ∃ t k, exec i s = .next t ∧ t.response = some (.fail c)
      ∧ t.src.rem = s.src.rem.drop k ∧ t.requests = s.requests ++ [.read 1] := by
  have hrun : decodeForm s = .raised c ((s.addRequest (.read 1)).setSource (s.src.lose s.draws)) := by
    rw [decodeForm, memRead_fails hf, Stage.andThen_raised]
  obtain ⟨t, ht, hresp, hsrc, hreq⟩ := exec_of_decodeForm_raised hi hrun
  exact ⟨t, Config.srcAfterFail s.draws, ht, hresp, congrArg Source.rem hsrc, hreq⟩

/-- A decode whose second read fails passes the condition on and reads no more; the first byte stays used up. -/
theorem exec_decode_of_second_fails {i : Instr} {o : Word} {s : State} {b : Byte} {u : List Byte} {c : Condition}
    (hi : i = .decode o ∨ i = .decodes o) (hr : s.src.rem = b :: u) (hplan : nextAnswer s.src.plan = .comply)
    (he : 1 ≤ clo8 b) (hf : (Source.mk u s.src.ended s.src.plan.tail).fails (clo8 b) c) :
    ∃ t k, exec i s = .next t ∧ t.response = some (.fail c)
      ∧ t.src.rem = u.drop k ∧ t.requests = s.requests ++ [.read 1, .read (clo8 b)] := by
  have hrun := decodeForm_cons hr hplan
  rw [afterFirstByte_pos he (clo8_le b), memRead_fails hf, Stage.andThen_raised] at hrun
  obtain ⟨t, ht, hresp, hsrc, hreq⟩ := exec_of_decodeForm_raised hi hrun
  exact ⟨t, Config.srcAfterFail s.draws, ht, hresp, congrArg Source.rem hsrc, hreq.trans (List.append_assoc ..)⟩

/-- Settles O26: a source that has ended fails a read of more bytes than it has, the first or the second. -/
theorem decodeReportsTruncation : Obligations.DecodeReportsTruncation := by
  intro o s i hi hended hplan
  refine ⟨fun hr => ?_, fun b u hr hlt hplan' => ?_⟩
  · have hshort : s.src.rem.length < 1 := by rw [hr]; exact Nat.one_pos
    obtain ⟨t, k, ht, hresp, hrem, hreq⟩ := exec_decode_of_first_fails hi (.inl ⟨rfl, hplan, hshort, hended⟩)
    rw [hr, List.drop_nil] at hrem
    exact ⟨t, ht, hresp, hrem, hreq⟩
  · exact exec_decode_of_second_fails hi hr hplan (Nat.one_le_of_lt hlt) (.inl ⟨rfl, hplan', hlt, hended⟩)

/-- Settles O27: a planned fault fails the read it answers, the first or the second. -/
theorem decodeReportsSourceFault : Obligations.DecodeReportsSourceFault :=
  fun _ _ _ token hi =>
    ⟨fun hfault => exec_decode_of_first_fails hi (.inr ⟨token, rfl, hfault⟩),
      fun _ _ hr hplan he hfault => exec_decode_of_second_fails hi hr hplan he (.inr ⟨token, rfl, hfault⟩)⟩

/-! ### Reads that are served -/

/-- A decode that answers `Ok` has found a whole form at the front of the source and left what follows it. -/
theorem decodeOutcome_rem_of_ok {op : StreamOp} {post : Word → Word} {s t : State} {v : Word}
    (h : DecodeOutcome op post s t) (hok : t.response = some (.ok v)) :
    ∃ b u, s.src.rem = b :: u ∧ clo8 b ≤ u.length ∧ t.src.rem = u.drop (clo8 b) := by
  rcases h.ends with ⟨b, u, hr, hle, -, hrem, -⟩ | ⟨c, hfail, -⟩ | ⟨hnone, -⟩
  · exact ⟨b, u, hr, hle, hrem⟩
  · cases hfail.symm.trans hok
  · cases hnone.symm.trans hok

/-- Settles O28: the bytes taken and the bytes left make up the source. -/
theorem decodeConsumesExactlyTheForm : Obligations.DecodeConsumesExactlyTheForm := by
  intro o s t i v hi ht hok
  obtain ⟨op, post, out⟩ := decodeOutcome_of_exec hi ht
  obtain ⟨b, u, hr, hle, hrem⟩ := decodeOutcome_rem_of_ok out hok
  rw [hr, hrem]
  refine ⟨b, rfl, ?_⟩
  rw [Nat.add_comm]
  exact ⟨Nat.succ_le_succ hle, (List.take_append_drop (clo8 b + 1) (b :: u)).symm⟩

end Sys2Proof.Proofs
end

section
/-! SUPPORT. DECODE over a source that has ended and does not fault does what the decoder on bytes does (R139). So it takes back what
ENCODE wrote (R138), and every well-formed form (R137). -/

namespace Sys2Proof.Proofs

open Sys2Proof Sys2Proof.Machine Sys2Proof.Spec

/-! ### Reliable sources -/

/-- A collaborator that only complies complies with the next request. -/
theorem nextAnswer_of_forall_comply {plan : List Answer} (h : ∀ a ∈ plan, a = .comply) : nextAnswer plan = .comply := by
  cases plan with
  | nil => rfl
  | cons a plan => exact h a List.mem_cons_self

/-- A reliable source stays reliable when bytes are taken from it. -/
theorem reliable_take {src : Source} (h : src.reliable) (k : Nat) : (src.take k).reliable :=
  ⟨h.1, fun a ha => h.2 a (List.mem_of_mem_tail ha)⟩

/-- A reliable source answers every read. -/
theorem not_unanswered_of_reliable {src : Source} (h : src.reliable) (k : Nat) : ¬ src.unanswered k := by
  obtain ⟨hended, hplan⟩ := h
  rintro (hsilent | ⟨-, -, hopen⟩)
  · cases (nextAnswer_of_forall_comply hplan).symm.trans hsilent
  · cases hended.symm.trans hopen

/-- A reliable source fails a read only for want of bytes. -/
theorem fails_of_reliable {src : Source} {k : Nat} {c : Condition} (h : src.reliable) (hf : src.fails k c) :
    c = .unexpectedEndOfStream ∧ src.rem.length < k := by
  rcases hf with ⟨hc, -, hlt, -⟩ | ⟨token, -, hfault⟩
  · exact ⟨hc, hlt⟩
  · cases (nextAnswer_of_forall_comply h.2).symm.trans hfault

/-! ### The decoder on bytes -/

/-- The decoder cannot go on when fewer bytes follow than the first announces. -/
theorem vintDecode_cons_of_lt {b : Byte} {u : List Byte} (h : u.length < clo8 b) : vintDecode (b :: u) = none :=
  if_pos h

/-- The decoder folds as many of the bytes that follow as the first announces. -/
theorem vintDecode_cons_of_le {b : Byte} {u : List Byte} (h : clo8 b ≤ u.length) :
    vintDecode (b :: u) = some (foldBytes (firstByteValue b (clo8 b)) (u.take (clo8 b)), 1 + clo8 b) :=
  if_neg (Nat.not_lt.mpr h)

/-- Over a reliable source a decode answers the decoder's value (with `post` applied) and uses up the decoder's bytes, or finds the
stream at its end where the decoder finds the list truncated. -/
theorem decodeOutcome_of_reliable {op : StreamOp} {post : Word → Word} {s t : State} (h : DecodeOutcome op post s t)
    (hrel : s.src.reliable) :
    (∃ v used, vintDecode s.src.rem = some (v, used) ∧ used ≤ s.src.rem.length
      ∧ t.response = some (.ok (post v)) ∧ t.src.rem = s.src.rem.drop used)
    ∨ (vintDecode s.src.rem = none ∧ t.response = some (.fail .unexpectedEndOfStream)) := by
  rcases h.ends with ⟨b, u, hr, hle, hresp, hrem, -⟩
    | ⟨c, hresp, -, ⟨hf, -⟩ | ⟨b, u, hr, -, -, hf, -⟩⟩
    | ⟨-, -, ⟨hw, -⟩ | ⟨b, u, -, -, -, hw, -⟩⟩
  · rw [hr, vintDecode_cons_of_le hle]
    refine .inl ⟨_, _, rfl, ?_, hresp, ?_⟩
    · rw [List.length_cons]; omega
    · rw [hrem, Nat.add_comm, List.drop_succ_cons]
  · obtain ⟨rfl, hlt⟩ := fails_of_reliable hrel hf
    rw [List.length_eq_zero_iff.mp (Nat.lt_one_iff.mp hlt)]
    exact .inr ⟨rfl, hresp⟩
  · obtain ⟨rfl, hlt⟩ := fails_of_reliable (reliable_take hrel 1) hf
    rw [Source.take_one hr] at hlt
    rw [hr, vintDecode_cons_of_lt hlt]
    exact .inr ⟨rfl, hresp⟩
  · exact absurd hw (not_unanswered_of_reliable hrel 1)
  · exact absurd hw (not_unanswered_of_reliable (reliable_take hrel 1) (clo8 b))

/-! ### DECODE and the decoder on bytes -/

/-- DECODE always answers a next state, and that is the outcome of a decode. -/
theorem exec_decode_outcome (o : Word) (s : State) :
    ∃ t, exec (.decode o) s = .next t ∧ DecodeOutcome .decode id s t := by
  obtain ⟨t, ht⟩ := exec_next (.decode o) s
  exact ⟨t, ht, decodeOutcome_of_exec_decode ht⟩

/-- Settles O25: DECODE has one outcome, which is the decoder's, and the counts of bytes up to the length of a list leave different
lists. -/
theorem decodeAgreesWithDecodeBytes : Obligations.DecodeAgreesWithDecodeBytes := by
  intro o s hrel
  obtain ⟨t, ht, out⟩ := exec_decode_outcome o s
  rcases decodeOutcome_of_reliable out hrel with ⟨v, used, hdec, hused, hresp, hrem⟩ | ⟨hdec, hresp⟩
  · refine ⟨fun v' used' => ⟨fun h => ?_, fun h => ?_⟩, fun h => ?_, fun h => ?_⟩
    · cases hdec.symm.trans h
      exact ⟨hused, t, ht, hresp, hrem⟩
    · obtain ⟨hused', t', ht', hresp', hrem'⟩ := h
      cases ht.symm.trans ht'
      cases hresp.symm.trans hresp'
      have hlen := congrArg List.length (hrem.symm.trans hrem')
      rw [List.length_drop, List.length_drop] at hlen
      rw [hdec, show used = used' by omega]
      rfl
    · cases hdec.symm.trans h
    · obtain ⟨t', ht', hresp'⟩ := h
      cases ht.symm.trans ht'
      cases hresp.symm.trans hresp'
  · refine ⟨fun v' used' => ⟨fun h => ?_, fun h => ?_⟩, fun _ => ⟨t, ht, hresp⟩, fun _ => hdec⟩
    · cases hdec.symm.trans h
    · obtain ⟨-, t', ht', hresp', -⟩ := h
      cases ht.symm.trans ht'
      cases hresp.symm.trans hresp'

/-- DECODE takes from a reliable source the bytes `f` at its front that the decoder takes, and answers their value. -/
theorem exec_decode_of_vintDecode_append {s : State} {f rest : List Byte} {v : Word} (o : Word)
    (hsrc : s.src.rem = f ++ rest) (hrel : s.src.reliable) (hdec : vintDecode (f ++ rest) = some (v, f.length)) :
    ∃ t, exec (.decode o) s = .next t ∧ t.response = some (.ok v) ∧ t.src.rem = rest := by
  rw [← hsrc] at hdec
  obtain ⟨-, t, ht, hresp, hrem⟩ := ((decodeAgreesWithDecodeBytes o s hrel).1 v f.length).mp hdec
  exact ⟨t, ht, hresp, by rw [hrem, hsrc, List.drop_left]⟩

/-- Settles O30: what an ENCODE that answers `Ok` has written is the form, and the decoder gives the value of a form back. -/
theorem decodeInvertsEncode : Obligations.DecodeInvertsEncode := by
  refine ⟨vintDecode_vintEncode_append, fun v r o s t ht hresp => ?_⟩
  have hout := encodeOutcome_out_of_ok (encodeOutcome_of_exec_encode ht) hresp
  refine ⟨vintEncode v, hout, fun u rest hsrc hrel => ?_⟩
  apply exec_decode_of_vintDecode_append o hsrc hrel
  rw [vintDecode_vintEncode_append, vintEncode_length]

/-! ### Forms that are not minimal -/

/-- DECODE takes a well-formed form off the front of a reliable source and answers R66's sum. -/
theorem exec_decode_of_form {s : State} {b : Byte} {t rest : List Byte} (o : Word) (hlen : t.length = clo8 b)
    (hsrc : s.src.rem = b :: t ++ rest) (hrel : s.src.reliable) :
    ∃ w, exec (.decode o) s = .next w ∧ w.response = some (.ok (BitVec.ofNat 64 (formValue (clo8 b) b t)))
      ∧ w.src.rem = rest := by
  apply exec_decode_of_vintDecode_append o hsrc hrel
  rw [(decodingAssemblesTheValue b t rest hlen).1, List.length_cons, hlen, Nat.add_comm]

/-- What is left of a value above `e` extra bytes fits below the terminator when a form of that length can hold the value. -/
theorem byteOf_toNat_of_lt_cap {v : Word} {e : Nat} (he : e ≤ 8) (h : v.toNat < 2 ^ cap (e + 1)) :
    (byteOf v e).toNat = v.toNat / 2 ^ (8 * e) ∧ (byteOf v e).toNat < 2 ^ (7 - e) := by
  have hcap : cap (e + 1) ≤ 8 * e + (7 - e) := by unfold cap; split_ifs <;> omega
  have hlt : v.toNat / 2 ^ (8 * e) < 2 ^ (7 - e) := by
    apply Nat.div_lt_of_lt_mul
    rw [← pow_add]
    exact h.trans_le (Nat.pow_le_pow_right Nat.two_pos hcap)
  have hbyte : v.toNat / 2 ^ (8 * e) < 256 :=
    hlt.trans_le (Nat.pow_le_pow_right (j := 8) Nat.two_pos (by omega))
  rw [byteOf_toNat, Nat.mod_eq_of_lt hbyte]
  exact ⟨rfl, hlt⟩

/-- The value bits below a marker are what the marker leaves of the byte. -/
theorem marker_or_mod {e : Nat} {t : Byte} (he : e ≤ 8) (ht : t.toNat < 2 ^ (8 - e)) :
    (marker e ||| t).toNat % 2 ^ (8 - e) = t.toNat := by
  have hmul : 2 ^ 8 - 2 ^ (8 - e) = 2 ^ (8 - e) * (2 ^ e - 1) := by
    rw [Nat.mul_sub_one, ← pow_add, Nat.sub_add_cancel he]
  rw [marker_or_toNat he ht, hmul, Nat.mul_add_mod, Nat.mod_eq_of_lt ht]

/-- In every length that can hold a value, minimal or not, the marker above the value's bytes makes a form whose sum (R66) is the
value. -/
theorem formValue_marker_or_byteOf {v : Word} {e : Nat} (he : e ≤ 8) (h : v.toNat < 2 ^ cap (e + 1)) :
    formValue e (marker e ||| byteOf v e) (extraBytes v e) = v.toNat := by
  obtain ⟨hval, hlt⟩ := byteOf_toNat_of_lt_cap he h
  have hmod := marker_or_mod he (hlt.trans_le (Nat.pow_le_pow_right Nat.two_pos (by omega)))
  rw [formValue_of_length _ (extraBytes_length v e), hmod, hval, beValue_extraBytes, extraBytes_length, Nat.div_add_mod']

/-- Settles O29: DECODE answers R66's sum of whatever form it finds, and in every length that holds
the value some form has it for its sum. -/
theorem nonCanonicalFormsAreAccepted : Obligations.NonCanonicalFormsAreAccepted := by
  refine ⟨fun v e he hv => ?_, ?_⟩
  · have hclo : clo8 (marker e ||| byteOf v e) = e := clo8_marker_or he (byteOf_toNat_of_lt_cap he hv).2
    have hlen : (extraBytes v e).length = clo8 (marker e ||| byteOf v e) := by rw [hclo, extraBytes_length]
    refine ⟨_, ⟨_, _, rfl, hlen⟩, by rw [List.length_cons, extraBytes_length], ?_⟩
    intro o s rest hsrc hrel
    obtain ⟨t, ht, hresp, hrem⟩ := exec_decode_of_form o hlen hsrc hrel
    rw [hclo, formValue_marker_or_byteOf he hv, BitVec.ofNat_toNat, BitVec.setWidth_eq] at hresp
    exact ⟨t, ht, hresp, hrem⟩
  · rintro _ rest o s ⟨b, t, rfl, hlen⟩ hsrc hrel
    obtain ⟨w, hw, hresp, hrem⟩ := exec_decode_of_form o hlen hsrc hrel
    exact ⟨w, _, hw, hresp, hrem⟩

end Sys2Proof.Proofs
end

section
/-! SUPPORT. The ZigZag maps in arithmetic (R153, R156): each map read as an integer, from which the inverses and the order follow,
and the obligations these settle. -/

namespace Sys2Proof.Proofs

open Sys2Proof Sys2Proof.Machine Sys2Proof.Spec

/-! ### Signed to unsigned -/

/-- The mask of the sign leaves the shifted pattern, or complements it (R151). -/
theorem zigzagEncode_eq_ite (p : Word) : zigzagEncode p = if p.toInt < 0 then ~~~(p <<< 1) else p <<< 1 := by
  rw [zigzagEncode, sshiftRight_63]
  split
  · exact BitVec.xor_allOnes
  · exact BitVec.xor_zero

/-- R153: the map in arithmetic, on any pattern. -/
theorem zigzagEncode_toNat (p : Word) :
    ((zigzagEncode p).toNat : Int) = if 0 ≤ p.toInt then 2 * p.toInt else -2 * p.toInt - 1 := by
  have hp := BitVec.toInt_eq_toNat_cond p
  have hshift : (p <<< 1).toNat = p.toNat * 2 % 2 ^ 64 := by rw [BitVec.toNat_shiftLeft, Nat.shiftLeft_eq, pow_one]
  rw [zigzagEncode_eq_ite]
  by_cases hneg : p.toInt < 0
  · rw [if_pos hneg, if_neg (not_le.mpr hneg), BitVec.toNat_not, hshift]
    omega
  · rw [if_neg hneg, if_pos (not_lt.mp hneg), hshift]
    omega

/-- R153: the map in arithmetic, on the pattern of an `i64`. -/
theorem zigzagEncode_bits64_toNat {n : Int} (hlo : -2 ^ 63 ≤ n) (hhi : n < 2 ^ 63) :
    ((zigzagEncode (bits64 n)).toNat : Int) = if 0 ≤ n then 2 * n else -2 * n - 1 := by
  rw [zigzagEncode_toNat, bits64_toInt n hlo hhi]

/-- Settles O36: the response is the map's word, whose value is R153's. -/
theorem zzencAnswersTheMappedValue : Obligations.ZzencAnswersTheMappedValue :=
  fun n _ hlo hhi => ⟨zigzagEncode (bits64 n), zigzagEncode_bits64_toNat hlo hhi, rfl⟩

/-! ### Unsigned to signed -/

/-- The mask of the low bit leaves the shifted pattern, or complements it (R154). -/
theorem zigzagDecode_eq_ite (u : Word) : zigzagDecode u = if u.toNat % 2 = 0 then u >>> 1 else ~~~(u >>> 1) := by
  have hbit : u &&& 1#64 = BitVec.ofNat 64 (u.toNat % 2) := by
    apply BitVec.eq_of_toNat_eq
    rw [BitVec.toNat_and, BitVec.toNat_ofNat, BitVec.toNat_ofNat, Nat.one_mod, Nat.and_one_is_mod]
    omega
  rw [zigzagDecode, hbit]
  split
  case isTrue heven =>
    rw [heven]
    exact BitVec.xor_zero
  case isFalse hodd =>
    rw [Nat.mod_two_ne_zero.mp hodd]
    exact BitVec.xor_allOnes

/-- R156: the inverse map in arithmetic. -/
theorem zigzagDecode_toInt (u : Word) : (zigzagDecode u).toInt =
    if u.toNat % 2 = 0 then (u.toNat : Int) / 2 else -(((u.toNat : Int) + 1) / 2) := by
  have hu := u.isLt
  have hshift : (u >>> 1).toNat = u.toNat / 2 := by rw [BitVec.toNat_ushiftRight, Nat.shiftRight_eq_div_pow, pow_one]
  rw [zigzagDecode_eq_ite, BitVec.toInt_eq_toNat_cond]
  split
  case isTrue heven =>
    rw [hshift]
    omega
  case isFalse hodd =>
    rw [BitVec.toNat_not, hshift]
    omega

/-- The signed value comes back: an even code halves to `n`, an odd one to `n` below zero. -/
theorem zigzagDecode_zigzagEncode (p : Word) : zigzagDecode (zigzagEncode p) = p := by
  apply BitVec.eq_of_toInt_eq
  have henc := zigzagEncode_toNat p
  rw [zigzagDecode_toInt]
  by_cases hnonneg : 0 ≤ p.toInt
  · rw [if_pos hnonneg] at henc
    rw [if_pos (by omega)]
    omega
  · rw [if_neg hnonneg] at henc
    rw [if_neg (by omega)]
    omega

/-- The unsigned value comes back: the sign of the decoded value is the parity of the code. -/
theorem zigzagEncode_zigzagDecode (u : Word) : zigzagEncode (zigzagDecode u) = u := by
  apply BitVec.eq_of_toNat_eq
  have henc := zigzagEncode_toNat (zigzagDecode u)
  rw [zigzagDecode_toInt] at henc
  by_cases heven : u.toNat % 2 = 0
  · rw [if_pos heven, if_pos (by omega)] at henc
    omega
  · rw [if_neg heven, if_neg (by omega)] at henc
    omega

/-- Settles O37: the response is the inverse map's word, whose signed value is R156's. -/
theorem zzdecAnswersTheInverse : Obligations.ZzdecAnswersTheInverse :=
  ⟨fun u _ => ⟨zigzagDecode u, (signed64_eq_toInt _).trans (zigzagDecode_toInt u), rfl⟩,
    zigzagDecode_zigzagEncode, zigzagEncode_zigzagDecode⟩

/-! ### The order -/

/-- R157's list is the inverse map: its `k`-th value is what `k` decodes to. -/
theorem bits64_interleaved {k : Nat} (hk : k < 2 ^ 64) :
    bits64 (if k % 2 = 0 then (k : Int) / 2 else -(((k : Int) + 1) / 2)) = zigzagDecode (BitVec.ofNat 64 k) := by
  have hdec := zigzagDecode_toInt (BitVec.ofNat 64 k)
  rw [BitVec.toNat_ofNat, Nat.mod_eq_of_lt hk] at hdec
  rw [← hdec]
  exact BitVec.ofInt_toInt

/-- R153 by magnitude: the code is twice the magnitude, less one for a negative value. -/
theorem zigzagEncode_bits64_toNat_abs {n : Int} (hlo : -2 ^ 63 ≤ n) (hhi : n < 2 ^ 63) :
    ((zigzagEncode (bits64 n)).toNat : Int) = if 0 ≤ n then 2 * |n| else 2 * |n| - 1 := by
  rw [zigzagEncode_bits64_toNat hlo hhi]
  split
  case isTrue hnonneg => rw [abs_of_nonneg hnonneg]
  case isFalse hneg => rw [abs_of_neg (not_le.mp hneg), mul_neg, neg_mul]

/-- A smaller magnitude has a smaller code. -/
theorem zigzagEncode_bits64_lt {a b : Int} (halo : -2 ^ 63 ≤ a) (hahi : a < 2 ^ 63) (hblo : -2 ^ 63 ≤ b)
    (hbhi : b < 2 ^ 63) (h : |a| < |b|) : (zigzagEncode (bits64 a)).toNat < (zigzagEncode (bits64 b)).toNat := by
  have ha : ((zigzagEncode (bits64 a)).toNat : Int) ≤ 2 * |a| := by
    rw [zigzagEncode_bits64_toNat_abs halo hahi]
    split <;> omega
  have hb : 2 * |b| - 1 ≤ ((zigzagEncode (bits64 b)).toNat : Int) := by
    rw [zigzagEncode_bits64_toNat_abs hblo hbhi]
    split <;> omega
  omega

/-- `-m` comes just before `m`. -/
theorem zigzagEncode_bits64_neg_and_pos {m : Nat} (hpos : 1 ≤ m) (hm : m < 2 ^ 63) :
    (zigzagEncode (bits64 (-m))).toNat = 2 * m - 1 ∧ (zigzagEncode (bits64 m)).toNat = 2 * m := by
  have hneg := zigzagEncode_bits64_toNat (n := -m) (by omega) (by omega)
  have hnonneg := zigzagEncode_bits64_toNat (n := m) (by omega) (by omega)
  rw [if_neg (by omega)] at hneg
  rw [if_pos (by omega)] at hnonneg
  omega

/-- The codes of `k` bits are those of the signed values of `k` bits. -/
theorem zigzagEncode_bits64_lt_two_pow_iff {n : Int} {k : Nat} (hlo : -2 ^ 63 ≤ n) (hhi : n < 2 ^ 63) (hk : 1 ≤ k) :
    (zigzagEncode (bits64 n)).toNat < 2 ^ k ↔ -2 ^ (k - 1) ≤ n ∧ n < 2 ^ (k - 1) := by
  have henc := zigzagEncode_bits64_toNat hlo hhi
  have hpow : (2 : Int) ^ k = 2 * 2 ^ (k - 1) := (mul_pow_sub_one (by omega) 2).symm
  rw [← Int.ofNat_lt, Nat.cast_pow, Nat.cast_ofNat, hpow, henc]
  generalize (2 : Int) ^ (k - 1) = half
  split <;> omega

/-- Settles O38: the list is the inverse map, and R153's two lines give the consequences. -/
theorem zigzagFollowsTheInterleavedOrder : Obligations.ZigzagFollowsTheInterleavedOrder := by
  refine ⟨fun k hk => ?_, fun _ _ => zigzagEncode_bits64_lt, fun _ => zigzagEncode_bits64_neg_and_pos,
    fun _ _ hlo hhi hk _ => zigzagEncode_bits64_lt_two_pow_iff hlo hhi hk⟩
  rw [bits64_interleaved hk, zigzagEncode_zigzagDecode, BitVec.toNat_ofNat, Nat.mod_eq_of_lt hk]

end Sys2Proof.Proofs
end

section
/-! SUPPORT. The signed pipeline (R165 to R168): the signed length as the least length of a code, the end of an operation with a
stage after it against the end without, and the obligations these settle. -/

namespace Sys2Proof.Proofs

open Sys2Proof Sys2Proof.Machine Sys2Proof.Spec

/-! ### The signed length -/

/-- A form of `m` bytes holds the code of a signed value exactly when the value is in the signed range of `CAP(m)` bits. -/
theorem vintSizeOf_zigzagEncode_le_iff {n : Int} {m : Nat} (hlo : -2 ^ 63 ≤ n) (hhi : n < 2 ^ 63) (h1 : 1 ≤ m)
    (h9 : m ≤ 9) : vintSizeOf (zigzagEncode (bits64 n)) ≤ m ↔ -2 ^ (cap m - 1) ≤ n ∧ n < 2 ^ (cap m - 1) := by
  have hcap : 1 ≤ cap m := Nat.le_trans (by decide) (cap_mono h1 h9)
  rw [vintSizeOf_le_iff _ h1 h9, zigzagEncode_bits64_lt_two_pow_iff hlo hhi hcap]

/-- Settles O39: the length SIZEOFS answers is the code's, and the lengths whose signed range holds `n` are those from it on. -/
theorem sizeofsAnswersTheSignedLength : Obligations.SizeofsAnswersTheSignedLength := by
  intro n s hlo hhi
  obtain ⟨h1, h9⟩ := vintSizeOf_bounds (zigzagEncode (bits64 n))
  refine ⟨vintSizeOf (zigzagEncode (bits64 n)), h1, h9, ?fits, fun m hm1 hm => ?least, rfl⟩
  case fits => exact (vintSizeOf_zigzagEncode_le_iff hlo hhi h1 h9).mp le_rfl
  case least =>
    rw [← vintSizeOf_zigzagEncode_le_iff hlo hhi hm1 (by omega)]
    exact not_le.mpr hm

/-! ### The composition -/

/-- The working values that an operation retires are apart from the streams, the requests and the scratch buffer (R25, R26). -/
theorem retire_frame (op : StreamOp) (s : State) :
    (s.retire op).snk = s.snk ∧ (s.retire op).src = s.src ∧ (s.retire op).sb = s.sb
      ∧ (s.retire op).requests = s.requests := by
  cases op <;> exact ⟨rfl, rfl, rfl, rfl⟩

/-- A response with its result mapped; a failure stays as it is. -/
def mapResult (f : Word → Word) : Response → Response
  | .ok v => .ok (f v)
  | .fail c => .fail c

@[simp] theorem mapResult_ok (f : Word → Word) (v : Word) : mapResult f (.ok v) = .ok (f v) := rfl

@[simp] theorem mapResult_fail (f : Word → Word) (c : Condition) : mapResult f (.fail c) = .fail c := rfl

theorem mapResult_id : mapResult id = id := by
  funext r
  cases r <;> rfl

/-- `t` is `u` as far as the host and its streams can tell, and `t`'s response is `u`'s with its result mapped. -/
structure EndsAs (f : Word → Word) (t u : State) : Prop where
  response : t.response = u.response.map (mapResult f)
  snk : t.snk = u.snk
  src : t.src = u.src
  sb : t.sb = u.sb
  requests : t.requests = u.requests

/-- Two operations that respond in the same state, one with `r` and the other with `r` mapped, end alike up to `f`. -/
theorem endsAs_respond (f : Word → Word) (op op' : StreamOp) (r : Response) (s : State) :
    EndsAs f ((s.retire op).respond (mapResult f r)) ((s.retire op').respond r) := by
  obtain ⟨hsnk, hsrc, hsb, hreq⟩ := retire_frame op s
  obtain ⟨hsnk', hsrc', hsb', hreq'⟩ := retire_frame op' s
  exact ⟨rfl, hsnk.trans hsnk'.symm, hsrc.trans hsrc'.symm, hsb.trans hsb'.symm, hreq.trans hreq'.symm⟩

/-- A last stage that only maps the value changes the result and nothing else, whatever the two operations are called: it runs after
a value, and neither after a raise nor while an answer is awaited. -/
theorem finish_andThen_done (f : Word → Word) (op op' : StreamOp) (st : Stage Word) :
    ∃ t u, finish op (st.andThen fun v s => .done (f v) s) = .next t ∧ finish op' st = .next u ∧ EndsAs f t u := by
  cases st with
  | done v s => exact ⟨_, _, rfl, rfl, endsAs_respond f op op' (.ok v) s⟩
  | raised c s => exact ⟨_, _, rfl, rfl, endsAs_respond f op op' (.fail c) s⟩
  | waiting s => exact ⟨_, _, rfl, rfl, rfl, rfl, rfl, rfl, rfl⟩

/-- ENCODES ends as ENCODE of the mapped value does (R166). -/
theorem encodes_endsAs_encode (p : Word) (s : State) :
    ∃ t u, exec (.encodes p) s = .next t ∧ exec (.encode (zigzagEncode p)) s = .next u ∧ EndsAs id t u := by
  obtain ⟨t, u, ht, hu, hends⟩ := finish_andThen_done id .encodes .encode (encodeForm (zigzagEncode p) s)
  rw [andThen_done_self] at ht
  exact ⟨t, u, ht, hu, hends⟩

/-- DECODES ends as DECODE does, with the result mapped back (R167). -/
theorem decodes_endsAs_decode (o : Word) (s : State) :
    ∃ t u, exec (.decodes o) s = .next t ∧ exec (.decode o) s = .next u ∧ EndsAs zigzagDecode t u :=
  finish_andThen_done zigzagDecode .decodes .decode (decodeForm s)

/-- Settles O40: ENCODES and DECODES are ENCODE and DECODE with a ZigZag map before or after, and SIZEOFS is SIZEOF by definition. -/
theorem signedPipelineIsTheComposition : Obligations.SignedPipelineIsTheComposition := by
  intro p o s
  refine ⟨?encodes, ?decodes, rfl⟩
  case encodes =>
    obtain ⟨t, u, ht, hu, hends⟩ := encodes_endsAs_encode p s
    have hresp : t.response = u.response := by
      rw [hends.response, mapResult_id, Option.map_id_apply]
    exact ⟨t, u, ht, hu, hresp, hends.snk, hends.src, hends.sb, hends.requests⟩
  case decodes =>
    obtain ⟨t, u, ht, hu, hends⟩ := decodes_endsAs_decode o s
    refine ⟨t, u, ht, hu, hends.snk, hends.src, hends.sb, hends.requests, fun v hv => ?_, fun c hc => ?_, fun hnone => ?_⟩
    · rw [hends.response, hv, Option.map_some, mapResult_ok]
    · rw [hends.response, hc, Option.map_some, mapResult_fail]
    · rw [hends.response, hnone, Option.map_none]

end Sys2Proof.Proofs
end

section
/-! SUPPORT. The encoder and the decoder are inverse to each other, on words (R61, R70, R71, R75) and on bytes (log 3). -/

namespace Sys2Proof.Proofs

open Sys2Proof

/-! ### Command words and first bytes -/

/-- The encoder gives a command word its operation code and its operand back: one case per code. -/
theorem encode_decodeCommand (w : CommandWord) : encode (decodeCommand w) = .command w := by
  have hfields : encode (decodeCommand w) = .command (commandWord (opField w) (operandField w)) := by
    have hop := (opField w).isLt
    have hnum : BitVec.ofNat 4 (opField w).toNat = opField w := BitVec.ofNat_toNat 4 (opField w)
    rw [← hnum, decodeCommand]
    generalize (opField w).toNat = op at hop
    interval_cases op <;> rfl
  rw [hfields, commandWord_fields]

/-- The encoder gives a first byte its class and its value bits back. -/
theorem encode_decodeByte0 : ∀ b : Byte, encode (decodeByte0 b) = .firstByte b := by decide

/-- The encoder undoes the decoder. -/
theorem encode_decodeEncoded (w : Encoded) : encode (decodeEncoded w) = w := by
  cases w with
  | command w => exact encode_decodeCommand w
  | firstByte b => exact encode_decodeByte0 b

/-- The decoder undoes the encoder: a command word by its two fields, a first byte class by class. -/
theorem decodeEncoded_encode (i : Instr) : decodeEncoded (encode i) = i := by
  cases i with
  | sizeof | encode | decode | marker | zzenc | zzdec | encodes | decodes | sizeofs | reserved9 | reservedA | reservedB
  | reservedC | reservedD | reservedE | reservedF =>
    simp [Sys2Proof.encode, decodeEncoded, decodeCommand, opField_commandWord, operandField_commandWord]
  | wireL1 high => revert high; decide
  | wireL2 high => revert high; decide
  | wireL3 high => revert high; decide
  | wireL4 high => revert high; decide
  | wireL5 high => revert high; decide
  | wireL6 high => revert high; decide
  | wireL7 high => revert high; decide
  | wireL8 | wireL9 => rfl

/-- Settles O1, by the two directions. -/
theorem encodedInstructionsRoundTrip : Obligations.EncodedInstructionsRoundTrip :=
  ⟨decodeEncoded_encode, encode_decodeEncoded⟩

/-! ### Bytes -/

/-- Nine bytes laid out from a command word hold the word: each byte continues the bits below it. -/
theorem decode_commandBytes_append (w : CommandWord) (rest : List Byte) :
    decode .command (commandBytes w ++ rest) = .ok (decodeCommand w, rest) := by
  simp only [commandBytes, List.cons_append, List.nil_append, decode, BitVec.extractLsb'_append_eq_left,
    BitVec.extractLsb'_append_eq_right, BitVec.extractLsb'_append_extractLsb'_eq_extractLsb', if_true]
  exact congrArg (fun x => Except.ok (decodeCommand x, rest)) BitVec.extractLsb'_eq_self

/-- The bytes of an encoded instruction decode as the word does, at the port the word stands at. -/
theorem decode_bytes_append (w : Encoded) (rest : List Byte) :
    decode w.port (w.bytes ++ rest) = .ok (decodeEncoded w, rest) := by
  cases w with
  | command w => exact decode_commandBytes_append w rest
  | firstByte b => rfl

/-- The number of a command word, cut into bytes, gives the bytes of the word: the last has four zero bits above bit 67. -/
theorem littleEndianBytes_command (w : CommandWord) : littleEndianBytes 9 w.toNat = commandBytes w := by
  have htop : BitVec.ofNat 8 (w.toNat >>> 64) = 0#4 ++ w.extractLsb' 64 4 := by
    have hop : w.toNat >>> 64 < 16 := by
      rw [Nat.shiftRight_eq_div_pow]
      exact Nat.div_lt_of_lt_mul w.isLt
    apply BitVec.eq_of_toNat_eq
    rw [BitVec.toNat_append, BitVec.extractLsb'_toNat, BitVec.toNat_ofNat]
    simp
    omega
  simp only [commandBytes, ← htop]
  rfl

/-- The opcode table's number of a command word stands for the word's instruction. -/
theorem decodeTableWord_command (w : CommandWord) : decodeTableWord 72 w.toNat = some (decodeCommand w) := by
  have hlt : w.toNat < 2 ^ 72 := w.isLt.trans (by decide)
  have hdec := decode_commandBytes_append w []
  rw [List.append_nil] at hdec
  simp only [decodeTableWord, littleEndianBytes_command, hdec, if_pos hlt]
  rfl

/-- The opcode table's number of a first byte stands for the byte's instruction. -/
theorem decodeTableWord_firstByte (b : Byte) : decodeTableWord 8 b.toNat = some (decodeByte0 b) := by
  have hbytes : littleEndianBytes 1 b.toNat = [b] := by
    rw [littleEndianBytes, List.range_one, List.map_singleton, Nat.mul_zero, Nat.shiftRight_zero, BitVec.ofNat_toNat,
      BitVec.setWidth_eq]
  simp only [decodeTableWord, hbytes, if_pos b.isLt]
  rfl

/-- Settles O2: the decoder on bytes is the decoder on words, which undoes the encoder. -/
theorem instructionBytesDecode : Obligations.InstructionBytesDecode := by
  refine ⟨fun i rest => ?_, decodeTableWord_command, decodeTableWord_firstByte⟩
  rw [decode_bytes_append, decodeEncoded_encode]

/-- Settles O3, word by word. -/
theorem writtenOutWordsDecode : Obligations.WrittenOutWordsDecode :=
  ⟨rfl, rfl, rfl, rfl, rfl, rfl, rfl, rfl, rfl, rfl, rfl, rfl, rfl, rfl, rfl, rfl⟩

end Sys2Proof.Proofs
end

section
/-! SUPPORT. The round trip of the signed pipeline as operations (R169). -/

namespace Sys2Proof.Proofs

open Sys2Proof Sys2Proof.Machine

/-- An encode that answers `Ok` answers the length of the form. -/
theorem encodeOutcome_result_of_ok {op : StreamOp} {v r : Word} {s t : State} (h : EncodeOutcome op v s t)
    (hr : t.response = some (.ok r)) : r = BitVec.ofNat 64 (vintSizeOf v) := by
  rcases h.ends with ⟨-, hok, -⟩ | ⟨token, -, hfail, -⟩ | ⟨-, hnone, -⟩
  · cases hok.symm.trans hr
    rfl
  · cases hfail.symm.trans hr
  · cases hnone.symm.trans hr

/-- The length of a form is a 64-bit value. -/
theorem ofNat_vintSizeOf_toNat (v : Word) : (BitVec.ofNat 64 (vintSizeOf v)).toNat = vintSizeOf v := by
  have h9 := (vintSizeOf_bounds v).2
  rw [BitVec.toNat_ofNat, Nat.mod_eq_of_lt (by omega)]

/-- DECODES takes the form of a mapped value off the front of a reliable source and answers the value (R167). -/
theorem exec_decodes_of_vintEncode_append {n : Word} {s : State} {rest : List Byte} (o : Word)
    (hsrc : s.src.rem = vintEncode (zigzagEncode n) ++ rest) (hrel : s.src.reliable) :
    ∃ t, exec (.decodes o) s = .next t ∧ t.response = some (.ok n) ∧ t.src.rem = rest := by
  obtain ⟨t, ht⟩ := exec_next (.decodes o) s
  have hdec := vintDecode_vintEncode_append (zigzagEncode n) rest
  rw [← hsrc] at hdec
  rcases decodeOutcome_of_reliable (decodeOutcome_of_exec_decodes ht) hrel with
    ⟨v, used, hdec', -, hresp, hrem⟩ | ⟨hnone, -⟩
  · cases hdec.symm.trans hdec'
    rw [zigzagDecode_zigzagEncode] at hresp
    rw [hsrc, ← vintEncode_length, List.drop_left] at hrem
    exact ⟨t, ht, hresp, hrem⟩
  · cases hdec.symm.trans hnone

/-- Settles O41: the bytes gained are the form of the mapped value, which DECODES takes back and SIZEOFS counts. -/
theorem signedPipelineRoundTrip : Obligations.SignedPipelineRoundTrip := by
  intro n r o s t ht hresp
  have out := encodeOutcome_of_exec_encodes ht
  obtain rfl := encodeOutcome_result_of_ok out hresp
  refine ⟨vintEncode (zigzagEncode n), encodeOutcome_out_of_ok out hresp, ?_,
    fun _ _ => exec_decodes_of_vintEncode_append o, fun _ => ⟨_, rfl, rfl⟩⟩
  rw [vintEncode_length, ofNat_vintSizeOf_toNat]

end Sys2Proof.Proofs
end

section
/-! SUPPORT. What one step does (R15, R21, R54, R210): an idle unit takes the host's next action, a reset is taken at any time, and
nothing else is a step. -/

namespace Sys2Proof.Proofs

open Sys2Proof Sys2Proof.Machine

/-- An idle unit takes the host's next action. -/
theorem step_of_idle_cons {s : State} {e : HostEvent} {rest : List HostEvent} (hidle : s.idle)
    (hev : s.events = e :: rest) : step s = runEvent e (s.takeEvent rest) := by
  rw [step, advance, hidle, hev]

/-- With nothing pending an idle unit stays idle (log 15). -/
theorem step_of_idle_nil {s : State} (hidle : s.idle) (hev : s.events = []) : step s = .next s.beginStep := by
  rw [step, advance, hidle, hev]

/-- A unit with an operation in progress stops at anything but a reset (log 11). -/
theorem step_of_inProgress {s : State} {op : StreamOp} (hop : s.inProgress = some op)
    (hev : s.events.head? ≠ some .reset) : step s = .fault .operationNeverCompletes := by
  rw [step, advance, hop]
  split
  next h _ => cases h
  next h _ => cases h
  next hreset => exact absurd (by rw [hreset]; rfl) hev
  next => rfl

/-- Everything a step can do. -/
theorem step_cases (s : State) :
    (s.idle ∧ s.events = [] ∧ step s = .next s.beginStep)
    ∨ (∃ e rest, s.idle ∧ s.events = e :: rest ∧ step s = runEvent e (s.takeEvent rest))
    ∨ (∃ rest, s.events = .reset :: rest ∧ step s = .next (s.takeEvent rest).resetUnit)
    ∨ (¬ s.safe ∧ step s = .fault .operationNeverCompletes) := by
  cases hop : s.inProgress with
  | none =>
    cases hev : s.events with
    | nil => exact .inl ⟨hop, rfl, step_of_idle_nil hop hev⟩
    | cons e rest => exact .inr (.inl ⟨e, rest, hop, rfl, step_of_idle_cons hop hev⟩)
  | some op =>
    by_cases hreset : s.events.head? = some .reset
    · obtain ⟨rest, hev⟩ := List.head?_eq_some_iff.mp hreset
      exact .inr (.inr (.inl ⟨rest, hev, step_reset hev⟩))
    · refine .inr (.inr (.inr ⟨?_, step_of_inProgress hop hreset⟩))
      rintro (hidle | h)
      · cases hop.symm.trans hidle
      · exact hreset h

/-- Settles O48: of the four things a step can do only the stop is no next state, and no safe state stops. -/
theorem stepStopsExactlyWhenHung : Obligations.StepStopsExactlyWhenHung := by
  intro s
  rcases step_cases s with ⟨hidle, -, h⟩ | ⟨e, rest, hidle, -, h⟩ | ⟨rest, hev, h⟩ | ⟨hsafe, h⟩ <;> rw [h]
  · exact ⟨⟨fun _ => ⟨_, rfl⟩, fun _ => .inl hidle⟩, nofun⟩
  · obtain ⟨t, ht⟩ := runEvent_next e (s.takeEvent rest)
    rw [ht]
    exact ⟨⟨fun _ => ⟨_, rfl⟩, fun _ => .inl hidle⟩, nofun⟩
  · exact ⟨⟨fun _ => ⟨_, rfl⟩, fun _ => .inr (by rw [hev]; rfl)⟩, nofun⟩
  · exact ⟨⟨fun hs => absurd hs hsafe, nofun⟩, nofun⟩

/-- Settles O50, one kind of action at a time. -/
theorem stepRunsTheDecodedCommand : Obligations.StepRunsTheDecodedCommand :=
  fun _ _ hidle =>
    ⟨fun _ hev => step_of_idle_cons hidle hev, fun hev => step_of_idle_nil hidle hev,
      fun _ hev => step_of_idle_cons hidle hev, fun _ hev => step_of_idle_cons hidle hev⟩

end Sys2Proof.Proofs
end

section
/-! SUPPORT. The invariant (R24, R25, R26, R42, R43, R48, R224): it holds after reset, and every step keeps it. -/

namespace Sys2Proof.Proofs

open Sys2Proof Sys2Proof.Machine Sys2Proof.Spec

/-! ### Working values while an operation is in progress -/

/-- An encode waits on the write of its `N` bytes. -/
theorem progressOk_of_write {s : State} {op : StreamOp} {bytes : List Byte} (hop : op = .encode ∨ op = .encodes)
    (hin : s.inProgress = some op) (hreq : s.requests = [.write bytes]) (hn : s.n.toNat = bytes.length) :
    s.progressOk = true := by
  rcases hop with rfl | rfl <;> simp [State.progressOk, hin, hreq, hn]

/-- A decode waits on the read of the first byte. -/
theorem progressOk_of_first_read {s : State} {op : StreamOp} (hop : op = .decode ∨ op = .decodes)
    (hin : s.inProgress = some op) (hreq : s.requests = [.read 1]) : s.progressOk = true := by
  rcases hop with rfl | rfl <;> simp [State.progressOk, hin, hreq]

/-- A decode waits on the read of `EXTRA` bytes, and `EXTRA` is the count of leading 1-bits of `B0`. -/
theorem progressOk_of_second_read {s : State} {op : StreamOp} (hop : op = .decode ∨ op = .decodes)
    (hin : s.inProgress = some op) (hextra : s.extra.toNat = clo8 s.b0)
    (hreq : s.requests = [.read 1, .read (clo8 s.b0)]) : s.progressOk = true := by
  rcases hop with rfl | rfl <;> simp [State.progressOk, hin, hreq, hextra]

/-! ### What an operation leaves -/

/-- The requests of a decode are legal: one byte, and then one to eight. -/
theorem decode_requests_legal {b : Byte} (he : 1 ≤ clo8 b) :
    ∀ r ∈ [StreamRequest.read 1, .read (clo8 b)], r.legal = true := by
  have h8 := clo8_le b
  simp [StreamRequest.legal, he, h8]

/-- The request of an encode is legal: one to nine bytes. -/
theorem encode_request_legal (v : Word) : ∀ r ∈ [StreamRequest.write (vintEncode v)], r.legal = true := by
  obtain ⟨h1, h9⟩ := vintSizeOf_bounds v
  simp [StreamRequest.legal, vintEncode_length, h1, h9]

/-- A unit is as at the beginning of its operation: idle, nothing asked yet, and nine bytes of scratch buffer. -/
structure Fresh (s : State) : Prop where
  idle : s.idle
  requests : s.requests = []
  sb : s.sb.length = Config.scratchBytes

/-- A unit that is idle meets the invariant when its scratch buffer and its requests do. -/
theorem inv_of_idle {s : State} (hidle : s.idle) (hsb : s.sb.length = Config.scratchBytes) (hlen : s.requests.length ≤ 2)
    (hlegal : ∀ r ∈ s.requests, r.legal = true) : s.Inv :=
  ⟨hsb, hlen, hlegal, fun h => absurd hidle h, by rw [State.progressOk, hidle]⟩

/-- A unit that has asked for nothing and is idle meets the invariant. -/
theorem inv_of_fresh {s : State} (h : Fresh s) : s.Inv := by
  refine inv_of_idle h.idle h.sb ?_ ?_ <;> rw [h.requests]
  · exact Nat.zero_le 2
  · exact List.forall_mem_nil _

/-- Settles O55: the reset state is such a unit. -/
theorem resetStateMeetsTheInvariant : Obligations.ResetStateMeetsTheInvariant :=
  ⟨inv_of_fresh ⟨rfl, rfl, rfl⟩, rfl, rfl⟩

/-- A form laid over the scratch buffer leaves it nine bytes long. -/
theorem encodeOutcome_sb_length {op : StreamOp} {v : Word} {s t : State} (h : EncodeOutcome op v s t)
    (hsb : s.sb.length = Config.scratchBytes) : t.sb.length = Config.scratchBytes := by
  have h9 : vintSizeOf v ≤ Config.scratchBytes := (vintSizeOf_bounds v).2
  rw [h.sb]
  split
  · rw [List.length_append, List.length_drop, vintEncode_length, hsb, Nat.add_sub_cancel' h9]
  · exact hsb

/-- An encode keeps the invariant: it has made its one write, and when that has no answer `N` still counts the bytes. -/
theorem inv_of_encodeOutcome {op : StreamOp} {v : Word} {s t : State} (hop : op = .encode ∨ op = .encodes)
    (h : EncodeOutcome op v s t) (hs : Fresh s) : t.Inv := by
  have hsb := encodeOutcome_sb_length h hs.sb
  have hreq : t.requests = [.write (vintEncode v)] := by rw [h.requests, hs.requests, List.nil_append]
  have hlen : t.requests.length ≤ 2 := by rw [hreq]; exact Nat.le_succ 1
  have hlegal : ∀ r ∈ t.requests, r.legal = true := hreq ▸ encode_request_legal v
  rcases h.ends with ⟨-, -, -, hin⟩ | ⟨token, -, -, -, hin⟩ | ⟨-, hresp, hn, -, hin⟩
  · exact inv_of_idle (hin.trans hs.idle) hsb hlen hlegal
  · exact inv_of_idle (hin.trans hs.idle) hsb hlen hlegal
  · have hcount : t.n.toNat = (vintEncode v).length := by
      rw [hn, vintEncode_length]
      exact setN_toNat v s
    exact ⟨hsb, hlen, hlegal, fun _ => hresp, progressOk_of_write hop hin hreq hcount⟩

/-- The requests of a decode that began with none asked. -/
theorem decodeOutcome_requests_legal {op : StreamOp} {post : Word → Word} {s t : State} (h : DecodeOutcome op post s t)
    (hreq : s.requests = []) : t.requests.length ≤ 2 ∧ ∀ r ∈ t.requests, r.legal = true := by
  rcases decodeOutcome_requests h with ⟨hone, -⟩ | ⟨b, -, -, he, htwo⟩
  · rw [hone, hreq]
    exact ⟨Nat.le_succ 1, by simp [StreamRequest.legal]⟩
  · rw [htwo, hreq]
    exact ⟨le_rfl, decode_requests_legal he⟩

/-- A decode keeps the invariant: it waits on one of its two reads, or it has given a response. -/
theorem inv_of_decodeOutcome {op : StreamOp} {post : Word → Word} {s t : State} (hop : op = .decode ∨ op = .decodes)
    (h : DecodeOutcome op post s t) (hs : Fresh s) : t.Inv := by
  have hsb : t.sb.length = Config.scratchBytes := h.sb ▸ hs.sb
  obtain ⟨hlen, hlegal⟩ := decodeOutcome_requests_legal h hs.requests
  rcases h.ends with ⟨b, u, -, -, -, -, -, hin, -⟩ | ⟨c, -, hin, -⟩ | ⟨hresp, hin, hwait⟩
  · exact inv_of_idle (hin.trans hs.idle) hsb hlen hlegal
  · exact inv_of_idle (hin.trans hs.idle) hsb hlen hlegal
  · refine ⟨hsb, hlen, hlegal, fun _ => hresp, ?_⟩
    rcases hwait with ⟨-, hreq, -⟩ | ⟨b, u, -, -, -, -, hreq, hb0, hextra, -⟩ <;>
      rw [hs.requests, List.nil_append] at hreq
    · exact progressOk_of_first_read hop hin hreq
    · subst hb0
      refine progressOk_of_second_read hop hin ?_ hreq
      rw [hextra, extra_toNat (clo8_le _)]

/-! ### Every step -/

/-- A command word that uses the decoder's working values is a DECODE or a DECODES: a first byte is no command word. -/
theorem decodeCommand_of_usesDecoder {w : CommandWord} (h : usesDecoder (decodeCommand w) = true) :
    ∃ o, decodeCommand w = .decode o ∨ decodeCommand w = .decodes o := by
  have henc := encode_decodeCommand w
  generalize decodeCommand w = i at h henc
  cases i with
  | decode o => exact ⟨o, .inl rfl⟩
  | decodes o => exact ⟨o, .inr rfl⟩
  | wireL1 | wireL2 | wireL3 | wireL4 | wireL5 | wireL6 | wireL7 | wireL8 | wireL9 => cases henc
  | _ => cases h

/-- The meaning of a command word, begun afresh, ends in the invariant. -/
theorem inv_of_exec_decodeCommand {w : CommandWord} {s t : State} (h : exec (decodeCommand w) s = .next t)
    (hs : Fresh s) : t.Inv := by
  cases hd : usesDecoder (decodeCommand w) with
  | true =>
    obtain ⟨o, hi | hi⟩ := decodeCommand_of_usesDecoder hd <;> rw [hi] at h
    · exact inv_of_decodeOutcome (.inl rfl) (decodeOutcome_of_exec_decode h) hs
    · exact inv_of_decodeOutcome (.inr rfl) (decodeOutcome_of_exec_decodes h) hs
  | false =>
    cases hw : writesSink (decodeCommand w) with
    | true =>
      generalize decodeCommand w = i at h hw
      cases i with
      | encode v => exact inv_of_encodeOutcome (.inl rfl) (encodeOutcome_of_exec_encode h) hs
      | encodes n => exact inv_of_encodeOutcome (.inr rfl) (encodeOutcome_of_exec_encodes h) hs
      | _ => cases hw
    | false =>
      obtain ⟨r, hr⟩ := exec_eq_respond hd hw s
      cases hr.symm.trans h
      exact inv_of_fresh ⟨hs.idle, hs.requests, hs.sb⟩

/-- What a host's action does to a unit that begins afresh keeps the invariant. -/
theorem inv_of_runEvent {e : HostEvent} {s t : State} (h : runEvent e s = .next t) (hs : Fresh s) : t.Inv := by
  cases e with
  | command w => exact inv_of_exec_decodeCommand h hs
  | reset => cases h; exact inv_of_fresh ⟨rfl, hs.requests, by simp⟩
  | attachSource src => cases h; exact inv_of_fresh ⟨hs.idle, hs.requests, hs.sb⟩
  | attachSink snk => cases h; exact inv_of_fresh ⟨hs.idle, hs.requests, hs.sb⟩

/-- Settles O54: a step clears the requests and lets an idle unit begin afresh, or resets it. -/
theorem stepKeepsTheInvariant : Obligations.StepKeepsTheInvariant := by
  rintro s t ⟨hsb, -⟩ h
  rcases step_cases s with ⟨hidle, -, hstep⟩ | ⟨e, rest, hidle, -, hstep⟩ | ⟨rest, -, hstep⟩ | ⟨-, hstep⟩ <;>
    rw [hstep] at h
  · cases h
    exact inv_of_fresh ⟨hidle, rfl, hsb⟩
  · exact inv_of_runEvent h ⟨hidle, rfl, hsb⟩
  · cases h
    exact inv_of_fresh ⟨rfl, rfl, by simp⟩
  · cases h

end Sys2Proof.Proofs
end

section
/-! SUPPORT. The constant-time formula of the size (R95): a form of `k` bytes holds the values of up to `7k` bits. -/

namespace Sys2Proof.Proofs

open Sys2Proof Sys2Proof.Machine

/-- A value other than 0 has the least form whose capacity is its bit length or more. -/
theorem vintSizeOf_of_bitlen64 {v : Word} {k : Nat} (hv : 1 ≤ v.toNat) (h1 : 1 ≤ k) (h9 : k ≤ 9)
    (hlow : cap (k - 1) < bitlen64 v) (hhigh : bitlen64 v ≤ cap k) : vintSizeOf v = k := by
  obtain ⟨hge, hlt⟩ := two_pow_bitlen64_bounds hv
  apply vintSizeOf_eq_of_bounds h1 h9
  · exact (Nat.pow_le_pow_right Nat.two_pos (Nat.le_sub_one_of_lt hlow)).trans hge
  · exact hlt.trans_le (Nat.pow_le_pow_right Nat.two_pos hhigh)

/-- Settles O9: the formula is the least `k` with `7k` bits or more, cut at 9, where the capacity is all 64 bits. -/
theorem sizeOfClosedForm : Obligations.SizeOfClosedForm := by
  intro v
  rcases Nat.eq_zero_or_pos v.toNat with hzero | hpos
  · rw [BitVec.eq_of_toNat_eq (y := 0#64) hzero]
    rfl
  · obtain ⟨hlow, hhigh⟩ := bitlen64_bounds v
    apply vintSizeOf_of_bitlen64 hpos
    · omega
    · omega
    · unfold cap
      split_ifs <;> omega
    · unfold cap
      split_ifs <;> omega

end Sys2Proof.Proofs
end

section
/-! SUPPORT. ENCODE and ENCODES as changes of the state (R115, R116, R118): the next state when the sink serves the write, and what
stays as it was whatever the sink answers. -/

namespace Sys2Proof.Proofs

open Sys2Proof Sys2Proof.Machine

/-- An encode whose write is served, as one change of the state. -/
theorem finish_encodeForm_served {op : StreamOp} (hop : op = .encode ∨ op = .encodes) (v : Word) {s : State}
    (h : s.snk.serves) : ∃ n, finish op (encodeForm v s) = .next { s with
      response := some (.ok (BitVec.ofNat 64 (vintSizeOf v)))
      requests := s.requests ++ [.write (vintEncode v)]
      snk := ⟨s.snk.out ++ vintEncode v, s.snk.plan.tail⟩
      sb := if 2 ≤ vintSizeOf v then vintEncode v ++ s.sb.drop (vintSizeOf v) else s.sb
      n := n } := by
  refine ⟨Config.idleN s.draws, ?_⟩
  rw [encodeForm_eq, loadForm_eq, memWrite_served (by exact h), Stage.andThen_done, finish_done, ← setWidth_size]
  rcases hop with rfl | rfl <;> rfl

/-- Settles O18: ENCODE is an encode of the value, and ENCODES one of the mapped value (R166). -/
theorem encodeWritesTheForm : Obligations.EncodeWritesTheForm :=
  fun v _ h => ⟨finish_encodeForm_served (.inl rfl) v h, finish_encodeForm_served (.inr rfl) (zigzagEncode v) h⟩

/-- An encode adds to the sink a part of the form from its first byte on. -/
theorem encodeOutcome_out {op : StreamOp} {v : Word} {s t : State} (h : EncodeOutcome op v s t) :
    ∃ k, t.snk.out = s.snk.out ++ (vintEncode v).take k := by
  rcases h.ends with ⟨-, -, hout, -⟩ | ⟨token, -, -, hout, -⟩ | ⟨-, -, -, hout, -⟩
  · exact ⟨(vintEncode v).length, by rw [hout, List.take_length]⟩
  · exact ⟨_, hout⟩
  · exact ⟨_, hout⟩

/-- An encode that gives a response is not left in progress. -/
theorem encodeOutcome_inProgress {op : StreamOp} {v : Word} {s t : State} (h : EncodeOutcome op v s t)
    (hresp : t.response ≠ none) : t.inProgress = s.inProgress := by
  rcases h.ends with ⟨-, -, -, hin⟩ | ⟨token, -, -, -, hin⟩ | ⟨-, hnone, -⟩
  · exact hin
  · exact hin
  · exact absurd hnone hresp

/-- Settles O21, field by field: a sink that has only gained bytes still has its old ones in their places. -/
theorem encodeFrame : Obligations.EncodeFrame := by
  intro v u s t h
  obtain ⟨op, out⟩ := encodeOutcome_of_exec h
  obtain ⟨k, hout⟩ := encodeOutcome_out out
  refine ⟨out.src, out.b0, out.extra, out.acc, out.events, out.draws, out.plan, encodeOutcome_inProgress out,
    ⟨k, hout⟩, fun i hi => ?_⟩
  rw [hout, List.getElem?_append_left hi]

end Sys2Proof.Proofs
end

section
/-! SUPPORT. First bytes as instructions (R60 to R66, log 2): each is the rest of a decode from its byte, which answers R66's sum when
the source serves the extra bytes. -/

namespace Sys2Proof.Proofs

open Sys2Proof Sys2Proof.Machine Sys2Proof.Spec

/-! ### The instruction of a first byte -/

/-- The count a first byte runs with may be read off the byte. -/
theorem runFirstByte_of_clo8 {e : Nat} {b : Byte} (h : clo8 b = e) (s : State) :
    runFirstByte e b s = runFirstByte (clo8 b) b s := by
  rw [h]

/-- The instruction whose word is the first byte `b` runs the rest of a decode from `b`, with as many extra bytes as `b` announces:
in each class the byte is the class's marker above its value bits. -/
theorem exec_of_encode_firstByte {i : Instr} {b : Byte} (h : encode i = .firstByte b) (s : State) :
    exec i s = runFirstByte (clo8 b) b s := by
  cases i with
  | wireL1 high => cases h; exact runFirstByte_of_clo8 (e := 0) (by revert high; decide) s
  | wireL2 high => cases h; exact runFirstByte_of_clo8 (e := 1) (by revert high; decide) s
  | wireL3 high => cases h; exact runFirstByte_of_clo8 (e := 2) (by revert high; decide) s
  | wireL4 high => cases h; exact runFirstByte_of_clo8 (e := 3) (by revert high; decide) s
  | wireL5 high => cases h; exact runFirstByte_of_clo8 (e := 4) (by revert high; decide) s
  | wireL6 high => cases h; exact runFirstByte_of_clo8 (e := 5) (by revert high; decide) s
  | wireL7 high => cases h; exact runFirstByte_of_clo8 (e := 6) (by revert high; decide) s
  | wireL8 | wireL9 => cases h; rfl
  | _ => cases h

/-- Settles O31: what DECODE does after its first read is what the decoder's instruction of that byte does. -/
theorem decodeRunsTheFirstByte : Obligations.DecodeRunsTheFirstByte := by
  intro o s b t hr hplan
  rw [exec_of_encode_firstByte (encode_decodeByte0 b)]
  exact congrArg (finish .decode) (decodeForm_cons hr hplan)

/-! ### The extra bytes are served -/

/-- The fold over the bytes taken is R66's sum over the bytes there are. -/
theorem foldBytes_take {e : Nat} {t : List Byte} (b : Byte) (he : e ≤ 8) (h : e ≤ t.length) :
    foldBytes (firstByteValue b e) (t.take e) = BitVec.ofNat 64 (formValue e b t) := by
  rw [foldBytes_firstByteValue b he (List.length_take_of_le h), formValue, formValue, List.take_take, Nat.min_self]

/-- A decode goes on from its first byte to R66's sum, with `post` applied, when the source serves the extra bytes, if there are any;
with the response go the extra bytes and the decoder's working values. -/
theorem finish_afterFirstByte_served {op : StreamOp} (hop : op = .decode ∨ op = .decodes) (post : Word → Word) {e : Nat}
    (he : e ≤ 8) (b : Byte) {s : State} (h : 1 ≤ e → s.src.serves e) :
    ∃ b0 extra acc, finish op ((afterFirstByte e b s).andThen fun u s => .done (post u) s) = .next { s with
      response := some (.ok (post (BitVec.ofNat 64 (formValue e b s.src.rem))))
      requests := s.requests ++ if e = 0 then [] else [.read e]
      src := if e = 0 then s.src else s.src.take e
      b0 := b0, extra := extra, acc := acc } := by
  rcases afterFirstByte_cases he b s with ⟨hle, -, hrun⟩ | ⟨h1, c, hf, -⟩ | ⟨h1, hw, -⟩
  · rw [← foldBytes_take b he hle, hrun]
    rcases hop with rfl | rfl <;> exact ⟨_, _, _, rfl⟩
  · exact absurd (h h1) (not_serves_of_fails hf)
  · exact absurd (h h1) (not_serves_of_unanswered hw)

/-- A first byte is such a decode with nothing after it. -/
theorem runFirstByte_served {e : Nat} (he : e ≤ 8) (b : Byte) {s : State} (h : 1 ≤ e → s.src.serves e) :
    ∃ b0 extra acc, runFirstByte e b s = .next { s with
      response := some (.ok (BitVec.ofNat 64 (formValue e b s.src.rem)))
      requests := s.requests ++ if e = 0 then [] else [.read e]
      src := if e = 0 then s.src else s.src.take e
      b0 := b0, extra := extra, acc := acc } := by
  have hrun := finish_afterFirstByte_served (.inl rfl) id he b h
  rwa [andThen_done_self] at hrun

/-- Settles O32: with no extra byte the sum is the byte itself, whose leading bit is 0. -/
theorem oneByteFormAnswersItself : Obligations.OneByteFormAnswersItself := by
  intro high s
  have hbyte : ∀ h : BitVec 7, (0b0#1 ++ h).toNat % 2 ^ 8 = h.toNat := by decide
  have hval : formValue 0 (0b0#1 ++ high) s.src.rem = high.toNat := by
    rw [formValue, hbyte, List.take_zero, beValue, Nat.mul_zero, pow_zero, Nat.mul_one, Nat.add_zero]
  obtain ⟨b0, extra, acc, hrun⟩ := runFirstByte_served (Nat.zero_le 8) (0b0#1 ++ high) (s := s) nofun
  rw [hval, if_pos rfl, if_pos rfl, List.append_nil] at hrun
  exact ⟨b0, extra, acc, hrun⟩

/-- A first byte with extra bytes runs to its end when the source serves them. -/
theorem firstByteCompletes {i : Instr} {e : Nat} {b : Byte} (h1 : 1 ≤ e) (he : e ≤ 8)
    (hrun : ∀ s, exec i s = runFirstByte e b s) : FirstByteCompletes i e b := by
  intro s hs
  have h0 : e ≠ 0 := Nat.one_le_iff_ne_zero.mp h1
  have hend := runFirstByte_served he b fun _ => hs
  rwa [if_neg h0, if_neg h0, ← hrun] at hend

/-- Settles O33, class by class: the byte is the class's lowest byte with the value bits added. -/
theorem middleClassesAnswerTheForm : Obligations.MiddleClassesAnswerTheForm := by
  refine ⟨fun h => ?_, fun h => ?_, fun h => ?_, fun h => ?_, fun h => ?_, fun h => ?_⟩
  · rw [show BitVec.ofNat 8 (0x80 + h.toNat) = 0b10#2 ++ h by revert h; decide]
    exact firstByteCompletes (by decide) (by decide) fun _ => rfl
  · rw [show BitVec.ofNat 8 (0xC0 + h.toNat) = 0b110#3 ++ h by revert h; decide]
    exact firstByteCompletes (by decide) (by decide) fun _ => rfl
  · rw [show BitVec.ofNat 8 (0xE0 + h.toNat) = 0b1110#4 ++ h by revert h; decide]
    exact firstByteCompletes (by decide) (by decide) fun _ => rfl
  · rw [show BitVec.ofNat 8 (0xF0 + h.toNat) = 0b11110#5 ++ h by revert h; decide]
    exact firstByteCompletes (by decide) (by decide) fun _ => rfl
  · rw [show BitVec.ofNat 8 (0xF8 + h.toNat) = 0b111110#6 ++ h by revert h; decide]
    exact firstByteCompletes (by decide) (by decide) fun _ => rfl
  · rw [show BitVec.ofNat 8 (0xFC + h.toNat) = 0b1111110#7 ++ h by revert h; decide]
    exact firstByteCompletes (by decide) (by decide) fun _ => rfl

/-- Seven ones and a zero, or eight ones, leave a first byte no value bit: R66's sum is the number of the extra bytes. -/
theorem formValue_of_no_value_bits {e : Nat} {b : Byte} (h : b.toNat % 2 ^ (8 - e) = 0) (t : List Byte) :
    formValue e b t = beValue (t.take e) := by
  rw [formValue, h, Nat.zero_mul, Nat.zero_add]

/-- Settles O34: both bytes run to R66's sum, and neither has a value bit. -/
theorem longClassesAnswerTheTrailingBytes : Obligations.LongClassesAnswerTheTrailingBytes := by
  rintro i e (⟨rfl, rfl⟩ | ⟨rfl, rfl⟩) s hs
  · rw [← formValue_of_no_value_bits (b := 0xFE#8) rfl]
    exact firstByteCompletes (by decide) (by decide) (fun _ => rfl) s hs
  · rw [← formValue_of_no_value_bits (b := 0xFF#8) rfl]
    exact firstByteCompletes (by decide) (by decide) (fun _ => rfl) s hs

/-! ### DECODE and DECODES -/

/-- A decode whose reads are served: R66's sum, with `post` applied, of the form at the front of the source. -/
theorem finish_decodeForm_served {op : StreamOp} (hop : op = .decode ∨ op = .decodes) (post : Word → Word) {s : State}
    {b : Byte} {t : List Byte} (hr : s.src.rem = b :: t) (hplan : nextAnswer s.src.plan = .comply)
    (hextra : 1 ≤ clo8 b → nextAnswer s.src.plan.tail = .comply ∧ clo8 b ≤ t.length) :
    ∃ b0 extra acc, finish op ((decodeForm s).andThen fun u s => .done (post u) s) = .next { s with
      response := some (.ok (post (BitVec.ofNat 64 (formValue (clo8 b) b t))))
      requests := s.requests ++ if clo8 b = 0 then [.read 1] else [.read 1, .read (clo8 b)]
      src := ⟨t.drop (clo8 b), s.src.ended, if clo8 b = 0 then s.src.plan.tail else s.src.plan.tail.tail⟩
      b0 := b0, extra := extra, acc := acc } := by
  rw [decodeForm_cons hr hplan]
  obtain ⟨b0, extra, acc, hrun⟩ := finish_afterFirstByte_served hop post (clo8_le b) b
    (s := { s with requests := s.requests ++ [.read 1], src := ⟨t, s.src.ended, s.src.plan.tail⟩ }) hextra
  refine ⟨b0, extra, acc, hrun.trans ?_⟩
  by_cases h0 : clo8 b = 0 <;> simp [h0, Source.take]

/-- Settles O24: DECODE is a decode with nothing after it, and DECODES one with the ZigZag stage after it (R167). -/
theorem decodeAnswersTheValue : Obligations.DecodeAnswersTheValue := by
  intro o s b t hr hplan hextra
  have hdec := finish_decodeForm_served (.inl rfl) id hr hplan hextra
  rw [andThen_done_self] at hdec
  exact ⟨hdec, finish_decodeForm_served (.inr rfl) zigzagDecode hr hplan hextra⟩

/-! ### What a decode leaves unchanged -/

/-- The frame of a decode: the other half of the unit, the host, and what the source has left. -/
structure DecodeFrame (s t : State) : Prop where
  snk : t.snk = s.snk
  sb : t.sb = s.sb
  n : t.n = s.n
  events : t.events = s.events
  draws : t.draws = s.draws
  inProgress : t.response ≠ none → t.inProgress = s.inProgress
  ended : t.src.ended = s.src.ended
  rem : ∃ k, t.src.rem = s.src.rem.drop k

/-- DECODE and DECODES have lost the first byte, the form, or some bytes in a read that failed or has no answer. -/
theorem decodeOutcome_rem {op : StreamOp} {post : Word → Word} {s t : State} (h : DecodeOutcome op post s t) :
    ∃ k, t.src.rem = s.src.rem.drop k := by
  rcases h.ends with ⟨b, u, hr, -, -, hrem, -⟩
    | ⟨c, -, -, ⟨-, -, hrem⟩ | ⟨b, u, hr, -, -, -, -, hrem⟩⟩
    | ⟨-, -, ⟨-, -, hrem⟩ | ⟨b, u, hr, -, -, -, -, -, -, hrem⟩⟩
  · exact ⟨clo8 b + 1, by rw [hrem, hr, List.drop_succ_cons]⟩
  · exact ⟨_, hrem⟩
  · exact ⟨_ + 1, by rw [hrem, hr, List.drop_succ_cons]⟩
  · exact ⟨_, hrem⟩
  · exact ⟨_ + 1, by rw [hrem, hr, List.drop_succ_cons]⟩

/-- DECODE and DECODES keep the frame of a decode. -/
theorem decodeFrame_of_decodeOutcome {op : StreamOp} {post : Word → Word} {s t : State} (h : DecodeOutcome op post s t) :
    DecodeFrame s t := by
  refine ⟨h.snk, h.sb, h.n, h.events, h.draws, fun hresp => ?_, h.ended, decodeOutcome_rem h⟩
  rcases h.ends with ⟨b, u, -, -, -, -, -, hin, -⟩ | ⟨c, -, hin, -⟩ | ⟨hnone, -⟩
  · exact hin
  · exact hin
  · exact absurd hnone hresp

/-- A first byte keeps the frame of a decode. -/
theorem decodeFrame_of_runFirstByte {e : Nat} (he : e ≤ 8) {b : Byte} {s t : State} (h : runFirstByte e b s = .next t) :
    DecodeFrame s t := by
  unfold runFirstByte at h
  rcases afterFirstByte_cases he b s with ⟨-, -, hrun⟩ | ⟨-, c, -, hrun⟩ | ⟨-, -, hrun⟩ <;> rw [hrun] at h <;> cases h
  · by_cases h0 : e = 0
    · exact ⟨rfl, rfl, rfl, rfl, rfl, fun _ => rfl, by simp [h0, State.retire], 0, by simp [h0, State.retire]⟩
    · exact ⟨rfl, rfl, rfl, rfl, rfl, fun _ => rfl, by simp [h0, State.retire, Source.take], e,
        by simp [h0, State.retire, Source.take]⟩
  · exact ⟨rfl, rfl, rfl, rfl, rfl, fun _ => rfl, rfl, _, rfl⟩
  · exact ⟨rfl, rfl, rfl, rfl, rfl, fun hresp => absurd rfl hresp, rfl, _, rfl⟩

/-- Settles O35: the instruction is DECODE, DECODES or a first byte, and each keeps the frame. -/
theorem decodeFrame : Obligations.DecodeFrame := by
  intro i s t hd h
  have frame : DecodeFrame s t := by
    rcases exec_of_usesDecoder hd with ⟨o, hi⟩ | ⟨e, b, he, hrun⟩
    · obtain ⟨op, post, out⟩ := decodeOutcome_of_exec hi h
      exact decodeFrame_of_decodeOutcome out
    · exact decodeFrame_of_runFirstByte he (hrun s ▸ h)
  exact ⟨frame.snk, frame.sb, frame.n, frame.events, frame.draws, frame.inProgress, frame.ended, frame.rem⟩

end Sys2Proof.Proofs
end

section
/-! SUPPORT. Which instruction can raise which condition (R180). -/

namespace Sys2Proof.Proofs

open Sys2Proof Sys2Proof.Machine Sys2Proof.Spec

/-- The column of R180's table that says which instructions raise a condition. -/
def MayRaise (i : Instr) (c : Condition) : Prop :=
  (c = .unexpectedEndOfStream → readsSource i = true)
  ∧ (∀ token, c = .ioFailure token → readsSource i = true ∨ writesSink i = true)
  ∧ (c = .illegalOperation ↔ i.selectsOperation = false)
  ∧ (c = .operandRange ↔ i.operandInDomain = false)

/-! ### Conditions of the streams -/

/-- An instruction that makes stream requests passes the unit's own checks (R188). -/
theorem checks_of_stream {i : Instr} (h : readsSource i = true ∨ writesSink i = true) :
    i.selectsOperation = true ∧ i.operandInDomain = true := by
  cases i with
  | encode | encodes | decode | decodes | wireL2 | wireL3 | wireL4 | wireL5 | wireL6 | wireL7 | wireL8 | wireL9 =>
    exact ⟨rfl, rfl⟩
  | _ => rcases h with h | h <;> cases h

/-- An instruction that makes stream requests may raise an I/O fault. -/
theorem mayRaise_ioFailure {i : Instr} (h : readsSource i = true ∨ writesSink i = true) (token : IoToken) :
    MayRaise i (.ioFailure token) := by
  obtain ⟨hsel, hdom⟩ := checks_of_stream h
  exact ⟨nofun, fun _ _ => h, by simp [hsel], by simp [hdom]⟩

/-- An instruction that reads the source may find its end. -/
theorem mayRaise_unexpectedEndOfStream {i : Instr} (h : readsSource i = true) : MayRaise i .unexpectedEndOfStream := by
  obtain ⟨hsel, hdom⟩ := checks_of_stream (.inl h)
  exact ⟨fun _ => h, nofun, by simp [hsel], by simp [hdom]⟩

/-- An instruction that reads the source may raise what a read fails with. -/
theorem mayRaise_of_fails {i : Instr} {k : Nat} {c : Condition} {src : Source} (h : readsSource i = true)
    (hf : src.fails k c) : MayRaise i c := by
  rcases hf with ⟨rfl, -⟩ | ⟨token, rfl, -⟩
  · exact mayRaise_unexpectedEndOfStream h
  · exact mayRaise_ioFailure (.inl h) token

/-- A decode that fails does so because a read fails. -/
theorem decodeOutcome_fails {op : StreamOp} {post : Word → Word} {s t : State} {c : Condition}
    (h : DecodeOutcome op post s t) (hc : t.response = some (.fail c)) : ∃ k src, Source.fails k c src := by
  rcases h.ends with ⟨b, u, -, -, hok, -⟩ | ⟨c', hfail, -, hread⟩ | ⟨hnone, -⟩
  · cases hok.symm.trans hc
  · cases hfail.symm.trans hc
    rcases hread with ⟨hf, -⟩ | ⟨b, u, -, -, -, hf, -⟩
    · exact ⟨_, _, hf⟩
    · exact ⟨_, _, hf⟩
  · cases hnone.symm.trans hc

/-- A first byte that fails does so because its read fails. -/
theorem runFirstByte_fails {e : Nat} (he : e ≤ 8) {b : Byte} {s t : State} {c : Condition}
    (h : runFirstByte e b s = .next t) (hc : t.response = some (.fail c)) : ∃ k src, Source.fails k c src := by
  unfold runFirstByte at h
  rcases afterFirstByte_cases he b s with ⟨-, -, hrun⟩ | ⟨-, c', hf, hrun⟩ | ⟨-, -, hrun⟩ <;> rw [hrun] at h <;> cases h
  · cases hc
  · cases hc
    exact ⟨_, _, hf⟩
  · cases hc

/-- An instruction that reads the source is a decode or the rest of one. -/
theorem usesDecoder_of_readsSource {i : Instr} (h : readsSource i = true) : usesDecoder i = true := by
  cases i with
  | decode | decodes | wireL2 | wireL3 | wireL4 | wireL5 | wireL6 | wireL7 | wireL8 | wireL9 => rfl
  | _ => cases h

/-- An instruction that reads the source fails only with the condition of a read. -/
theorem mayRaise_of_readsSource {i : Instr} {s t : State} {c : Condition} (hr : readsSource i = true)
    (h : exec i s = .next t) (hc : t.response = some (.fail c)) : MayRaise i c := by
  rcases exec_of_usesDecoder (usesDecoder_of_readsSource hr) with ⟨o, hi⟩ | ⟨e, b, he, hrun⟩
  · obtain ⟨op, post, out⟩ := decodeOutcome_of_exec hi h
    obtain ⟨k, src, hf⟩ := decodeOutcome_fails out hc
    exact mayRaise_of_fails hr hf
  · obtain ⟨k, src, hf⟩ := runFirstByte_fails he (b := b) (hrun s ▸ h) hc
    exact mayRaise_of_fails hr hf

/-- An encode fails only with an I/O fault. -/
theorem encodeOutcome_fail {op : StreamOp} {v : Word} {s t : State} {c : Condition} (h : EncodeOutcome op v s t)
    (hc : t.response = some (.fail c)) : ∃ token, c = .ioFailure token := by
  rcases h.ends with ⟨-, hok, -⟩ | ⟨token, -, hfail, -⟩ | ⟨-, hnone, -⟩
  · cases hok.symm.trans hc
  · cases hfail.symm.trans hc
    exact ⟨token, rfl⟩
  · cases hnone.symm.trans hc

/-- An instruction that writes the sink fails only with an I/O fault. -/
theorem mayRaise_of_writesSink {i : Instr} {s t : State} {c : Condition} (hw : writesSink i = true)
    (h : exec i s = .next t) (hc : t.response = some (.fail c)) : MayRaise i c := by
  have hfault : ∃ token, c = .ioFailure token := by
    cases i with
    | encode v => exact encodeOutcome_fail (encodeOutcome_of_exec_encode h) hc
    | encodes n => exact encodeOutcome_fail (encodeOutcome_of_exec_encodes h) hc
    | _ => cases hw
  obtain ⟨token, rfl⟩ := hfault
  exact mayRaise_ioFailure (.inr hw) token

/-! ### Conditions of the unit's own checks -/

/-- MARKER fails only on an operand above 8, and then with `OperandRange`. -/
theorem mayRaise_of_marker {extra : Word} {s t : State} {c : Condition} (h : exec (.marker extra) s = .next t)
    (hc : t.response = some (.fail c)) : MayRaise (.marker extra) c := by
  by_cases hx : 8 < extra.toNat
  · cases (exec_marker_of_gt hx s).symm.trans h
    cases hc
    exact ⟨nofun, nofun, ⟨nofun, nofun⟩, by simp [Instr.operandInDomain, hx]⟩
  · cases (exec_marker_of_le (Nat.not_lt.mp hx) s).symm.trans h
    cases hc

/-- An instruction that selects no operation fails with `IllegalOperation`. -/
theorem mayRaise_of_not_selectsOperation {i : Instr} {s t : State} {c : Condition} (hsel : i.selectsOperation = false)
    (h : exec i s = .next t) (hc : t.response = some (.fail c)) : MayRaise i c := by
  have hdom : i.operandInDomain = true := by
    cases i with
    | marker => cases hsel
    | _ => rfl
  cases (exec_of_not_selectsOperation hsel s).symm.trans h
  cases hc
  exact ⟨nofun, nofun, by simp [hsel], by simp [hdom]⟩

/-- A first byte of class L1 never fails. -/
theorem exec_wireL1_not_fail {high : BitVec 7} {s t : State} {c : Condition} (h : exec (.wireL1 high) s = .next t) :
    t.response ≠ some (.fail c) := by
  obtain ⟨b0, extra, acc, hrun⟩ := oneByteFormAnswersItself high s
  cases hrun.symm.trans h
  nofun

/-- An instruction fails only with a condition that R180's table gives it. -/
theorem mayRaise_of_exec {i : Instr} {s t : State} {c : Condition} (h : exec i s = .next t)
    (hc : t.response = some (.fail c)) : MayRaise i c := by
  cases i with
  | decode | decodes | wireL2 | wireL3 | wireL4 | wireL5 | wireL6 | wireL7 | wireL8 | wireL9 =>
    exact mayRaise_of_readsSource rfl h hc
  | encode | encodes => exact mayRaise_of_writesSink rfl h hc
  | reserved9 | reservedA | reservedB | reservedC | reservedD | reservedE | reservedF =>
    exact mayRaise_of_not_selectsOperation rfl h hc
  | marker => exact mayRaise_of_marker h hc
  | wireL1 => exact absurd hc (exec_wireL1_not_fail h)
  | sizeof | sizeofs | zzenc | zzdec => cases h; cases hc

/-- Settles O43: the instructions of each group, and the codes as the table gives them. -/
theorem conditionsByOperation : Obligations.ConditionsByOperation :=
  ⟨fun _ _ _ _ => mayRaise_of_exec, fun _ => ⟨rfl, rfl, rfl, rfl⟩⟩

end Sys2Proof.Proofs
end

section
/-! SUPPORT. Operations complete when their requests are answered, and hang when one is not (R191). -/

namespace Sys2Proof.Proofs

open Sys2Proof Sys2Proof.Machine Sys2Proof.Spec

/-! ### Answered requests -/

/-- An operation has given a response, and is in progress only if it was before. -/
def Completed (s t : State) : Prop := ∃ r, t.response = some r ∧ t.inProgress = s.inProgress

/-- An encode completes when its write is answered. -/
theorem encodeOutcome_completed {op : StreamOp} {v : Word} {s t : State} (h : EncodeOutcome op v s t)
    (hans : ¬ s.snk.unanswered) : Completed s t := by
  rcases h.ends with ⟨-, hresp, -, hin⟩ | ⟨token, -, hresp, -, hin⟩ | ⟨hsilent, -⟩
  · exact ⟨_, hresp, hin⟩
  · exact ⟨_, hresp, hin⟩
  · exact absurd hsilent hans

/-- A decode completes when its first read is answered and, once that is served, its second. -/
theorem decodeOutcome_completed {op : StreamOp} {post : Word → Word} {s t : State} (h : DecodeOutcome op post s t)
    (hfirst : ¬ s.src.unanswered 1)
    (hsecond : ∀ b, s.src.rem.head? = some b → nextAnswer s.src.plan = .comply → 1 ≤ clo8 b →
      ¬ (s.src.take 1).unanswered (clo8 b)) : Completed s t := by
  rcases h.ends with ⟨b, u, -, -, hresp, -, -, hin, -⟩ | ⟨c, hresp, hin, -⟩
    | ⟨-, -, ⟨hw, -⟩ | ⟨b, u, hr, hplan, he, hw, -⟩⟩
  · exact ⟨_, hresp, hin⟩
  · exact ⟨_, hresp, hin⟩
  · exact absurd hw hfirst
  · exact absurd hw (hsecond b (by rw [hr]; rfl) hplan he)

/-- A first byte completes when the read of its extra bytes is answered. -/
theorem runFirstByte_completed {e : Nat} (he : e ≤ 8) {b : Byte} {s t : State} (h : runFirstByte e b s = .next t)
    (hans : 1 ≤ e → ¬ s.src.unanswered e) : Completed s t := by
  unfold runFirstByte at h
  rcases afterFirstByte_cases he b s with ⟨-, -, hrun⟩ | ⟨-, c, -, hrun⟩ | ⟨h1, hw, -⟩
  · rw [hrun] at h; cases h; exact ⟨_, rfl, rfl⟩
  · rw [hrun] at h; cases h; exact ⟨_, rfl, rfl⟩
  · exact absurd hw (hans h1)

/-- An instruction that completes gives a response and leaves an idle unit idle. -/
theorem exec_completes {i : Instr} {s : State} (hidle : s.idle) (h : ∀ t, exec i s = .next t → Completed s t) :
    ∃ t r, exec i s = .next t ∧ t.response = some r ∧ t.idle := by
  obtain ⟨t, ht⟩ := exec_next i s
  obtain ⟨r, hresp, hin⟩ := h t ht
  exact ⟨t, r, ht, hresp, hin.trans hidle⟩

/-- Settles O46, for an encode, a decode, a first byte, and the instructions that only respond. -/
theorem operationsCompleteWhenAnswered : Obligations.OperationsCompleteWhenAnswered := by
  refine ⟨?encode, ?decode, ?firstByte, ?none⟩
  case encode =>
    rintro v s i hidle (rfl | rfl) hans
    · exact exec_completes hidle fun t ht => encodeOutcome_completed (encodeOutcome_of_exec_encode ht) hans
    · exact exec_completes hidle fun t ht => encodeOutcome_completed (encodeOutcome_of_exec_encodes ht) hans
  case decode =>
    intro o s i hidle hi hfirst hsecond
    refine exec_completes hidle fun t ht => ?_
    obtain ⟨op, post, out⟩ := decodeOutcome_of_exec hi ht
    exact decodeOutcome_completed out hfirst hsecond
  case firstByte =>
    intro b s i hidle hi hans
    refine exec_completes hidle fun t ht => ?_
    rw [exec_of_encode_firstByte hi] at ht
    exact runFirstByte_completed (clo8_le b) ht hans
  case none =>
    intro s i hidle hd hw
    obtain ⟨r, hr⟩ := exec_eq_respond hd hw s
    exact ⟨_, r, hr, rfl, hidle⟩

/-! ### Unanswered requests -/

/-- An encode waits when its write has no answer. -/
theorem encodeForm_waiting (v : Word) {s : State} (h : s.snk.unanswered) : ∃ u, encodeForm v s = .waiting u := by
  rw [encodeForm_eq, loadForm_eq, memWrite_silent (by exact h), Stage.andThen_waiting]
  exact ⟨_, rfl⟩

/-- A first byte waits when the read of its extra bytes has no answer. -/
theorem afterFirstByte_waiting {e : Nat} (h1 : 1 ≤ e) (he : e ≤ 8) (b : Byte) {s : State} (h : s.src.unanswered e) :
    ∃ u, afterFirstByte e b s = .waiting u := by
  rw [afterFirstByte_pos h1 he, memRead_unanswered (by exact h), Stage.andThen_waiting]
  exact ⟨_, rfl⟩

/-- A decode waits when its first read has no answer, or its second when the first is served. -/
theorem decodeForm_waiting {s : State} (h : s.src.unanswered 1 ∨ ∃ b, s.src.rem.head? = some b
    ∧ nextAnswer s.src.plan = .comply ∧ 1 ≤ clo8 b ∧ (s.src.take 1).unanswered (clo8 b)) :
    ∃ u, decodeForm s = .waiting u := by
  rcases h with hfirst | ⟨b, hhead, hplan, h1, hsecond⟩
  · rw [decodeForm, memRead_unanswered hfirst, Stage.andThen_waiting]
    exact ⟨_, rfl⟩
  · obtain ⟨t, hr⟩ := List.head?_eq_some_iff.mp hhead
    rw [Source.take_one hr] at hsecond
    rw [decodeForm_cons hr hplan]
    exact afterFirstByte_waiting h1 (clo8_le b) b hsecond

/-- An operation that waits stays in progress and gives no response. -/
theorem finish_hangs (op : StreamOp) {st : Stage Word} (h : ∃ u, st = .waiting u) :
    ∃ t, finish op st = .next t ∧ t.inProgress = some op ∧ t.response = none := by
  obtain ⟨u, rfl⟩ := h
  exact ⟨u.suspend op, rfl, rfl, rfl⟩

/-- Settles O47, for an encode, a decode and a first byte, and the step of a unit that hangs. -/
theorem unansweredOperationHangs : Obligations.UnansweredOperationHangs := by
  refine ⟨?encode, ?decode, ?firstByte, fun _ _ => step_of_inProgress⟩
  case encode =>
    exact fun v s h => ⟨finish_hangs .encode (encodeForm_waiting v h),
      finish_hangs .encodes (encodeForm_waiting (zigzagEncode v) h)⟩
  case decode =>
    intro o s h
    obtain ⟨u, hu⟩ := decodeForm_waiting h
    refine ⟨finish_hangs .decode ⟨u, hu⟩, finish_hangs .decodes ⟨u, ?_⟩⟩
    rw [hu, Stage.andThen_waiting]
  case firstByte =>
    intro b s i hi h1 h
    rw [exec_of_encode_firstByte hi]
    exact finish_hangs .decode (afterFirstByte_waiting h1 (clo8_le b) b h)

end Sys2Proof.Proofs
end

section
/-! SUPPORT. Runs of the host: the word that the next step runs (log 1, log 2), and two operations one after the other (R54). -/

namespace Sys2Proof.Proofs

open Sys2Proof Sys2Proof.Machine Sys2Proof.Spec

/-! ### The word the next step runs -/

/-- A command word presented to the unit is what its next step runs. -/
theorem step_withFetchWord_command (w : CommandWord) (s : State) :
    step (s.withFetchWord 72 w.toNat) = exec (decodeCommand w) { s with
      inProgress := none, response := none, requests := [], draws := s.draws + 1 } := by
  have hword : BitVec.ofNat 68 w.toNat = w := BitVec.ofNat_toNat 68 w
  rw [step_of_idle_cons (s := s.withFetchWord 72 w.toNat) rfl rfl, hword]
  rfl

/-- A first byte presented to the unit is what the next step's DECODE takes from the source and runs. -/
theorem step_withFetchWord_firstByte (b : Byte) (s : State) :
    step (s.withFetchWord 8 b.toNat) = exec (decodeByte0 b) { s with
      inProgress := none, response := none, requests := [.read 1], draws := s.draws + 1
      src := ⟨List.replicate 8 0#8 ++ s.src.rem, s.src.ended, []⟩ } := by
  have hbyte : BitVec.ofNat 8 b.toNat = b := BitVec.ofNat_toNat 8 b
  have hfront : (s.withFetchWord 8 b.toNat).src.rem = b :: (List.replicate 8 0#8 ++ s.src.rem) :=
    congrArg (· :: (List.replicate 8 0#8 ++ s.src.rem)) hbyte
  rw [step_of_idle_cons (s := s.withFetchWord 8 b.toNat) rfl rfl]
  exact decodeRunsTheFirstByte (operandField decodeRequest) ((s.withFetchWord 8 b.toNat).takeEvent s.events) b _ hfront rfl

/-- Settles O51, for the two ports. -/
theorem fetchWordRunsTheInstruction : Obligations.FetchWordRunsTheInstruction :=
  fun s => ⟨fun w => step_withFetchWord_command w s, fun b => step_withFetchWord_firstByte b s⟩

/-! ### Two operations -/

/-- The command word of ENCODE (R71). -/
theorem decodeCommand_encode (v : Word) : decodeCommand (commandWord 0x1#4 v) = .encode v :=
  decodeEncoded_encode (.encode v)

/-- The command word of DECODE (R71). -/
theorem decodeCommand_decode (o : Word) : decodeCommand (commandWord 0x2#4 o) = .decode o :=
  decodeEncoded_encode (.decode o)

/-- A collaborator that only complies does so after any request. -/
theorem forall_comply_tail {plan : List Answer} (h : ∀ a ∈ plan, a = .comply) : ∀ a ∈ plan.tail, a = .comply :=
  fun a ha => h a (List.mem_of_mem_tail ha)

/-- A step that takes an ENCODE, over a sink that does not fault, adds the form and leaves the unit ready for the next. -/
theorem step_encode {s : State} {v : Word} {rest : List HostEvent} (hidle : s.idle) (hrel : s.snk.reliable)
    (hev : s.events = .command (commandWord 0x1#4 v) :: rest) :
    ∃ t, step s = .next t ∧ t.snk.out = s.snk.out ++ vintEncode v ∧ t.snk.reliable ∧ t.events = rest ∧ t.idle := by
  obtain ⟨n, hrun⟩ := (encodeWritesTheForm v (s.takeEvent rest) (nextAnswer_of_forall_comply hrel)).1
  rw [step_of_idle_cons hidle hev, runEvent, decodeCommand_encode, hrun]
  exact ⟨_, rfl, rfl, forall_comply_tail hrel, rfl, hidle⟩

/-- R66's sum of a form does not depend on what follows it. -/
theorem formValue_append {e : Nat} {t : List Byte} (h : t.length = e) (b : Byte) (rest : List Byte) :
    formValue e b (t ++ rest) = formValue e b t := by
  rw [formValue, formValue, ← h, List.take_left, List.take_length]

/-- A step that takes a DECODE, over a source that does not fault, answers R66's sum of the form at its front and leaves the unit
ready for the next. -/
theorem step_decode {s : State} {o : Word} {rest : List HostEvent} {b : Byte} {t after : List Byte} (hidle : s.idle)
    (hrel : s.src.reliable) (hlen : t.length = clo8 b) (hrem : s.src.rem = b :: (t ++ after))
    (hev : s.events = .command (commandWord 0x2#4 o) :: rest) :
    ∃ w, step s = .next w ∧ w.response = some (.ok (BitVec.ofNat 64 (formValue (clo8 b) b t)))
      ∧ w.src.rem = after ∧ w.src.reliable ∧ w.events = rest ∧ w.idle := by
  obtain ⟨hended, hplan⟩ := hrel
  have htail := forall_comply_tail hplan
  have hextra : 1 ≤ clo8 b → nextAnswer s.src.plan.tail = .comply ∧ clo8 b ≤ (t ++ after).length := by
    intro _
    rw [List.length_append, hlen]
    exact ⟨nextAnswer_of_forall_comply htail, Nat.le_add_right _ _⟩
  obtain ⟨b0, extra, acc, hrun⟩ :=
    (decodeAnswersTheValue o (s.takeEvent rest) b (t ++ after) hrem (nextAnswer_of_forall_comply hplan) hextra).1
  rw [step_of_idle_cons hidle hev, runEvent, decodeCommand_decode, hrun, formValue_append hlen]
  refine ⟨_, rfl, rfl, ?_, ⟨hended, ?_⟩, rfl, hidle⟩
  · exact hlen ▸ List.drop_left
  · dsimp only
    split
    · exact htail
    · exact forall_comply_tail htail

/-- Settles O52: each step leaves the stream as the next needs it. -/
theorem operationsFollowTheHostsOrder : Obligations.OperationsFollowTheHostsOrder := by
  constructor
  · intro s v1 v2 rest hidle hrel hev
    obtain ⟨t, ht, hout, hrel', hev', hidle'⟩ := step_encode hidle hrel hev
    obtain ⟨u, hu, hout', -, hev'', hidle''⟩ := step_encode hidle' hrel' hev'
    exact ⟨t, u, ht, hu, by rw [hout', hout, List.append_assoc], hev'', hidle''⟩
  · intro s o1 o2 rest b1 b2 t1 t2 after hidle hrel hlen1 hlen2 hrem hev
    have hrem1 : s.src.rem = b1 :: (t1 ++ (b2 :: (t2 ++ after))) := by rw [hrem]; simp
    obtain ⟨t, ht, hresp, hrem2, hrel', hev', hidle'⟩ := step_decode hidle hrel hlen1 hrem1 hev
    obtain ⟨u, hu, hresp', hrem', -, hev'', hidle''⟩ := step_decode hidle' hrel' hlen2 hrem2 hev'
    exact ⟨t, u, ht, hu, hresp, hresp', hrem', hev'', hidle''⟩

end Sys2Proof.Proofs
end

section
/-! SUPPORT. Responses do not depend on the stored state (R30): two runs of one instruction from states that agree on the streams and
the draws, compared stage by stage. -/

namespace Sys2Proof.Proofs

open Sys2Proof Sys2Proof.Machine Sys2Proof.Spec

/-! ### States that look alike -/

/-- Run side by side from `s` and from `u`, two operations stand at `t` and `w`: the streams and the draws are the same, and both have
asked for the same since. -/
structure Alike (s u t w : State) : Prop where
  src : t.src = w.src
  snk : t.snk = w.snk
  draws : t.draws = w.draws
  requests : ∃ r, t.requests = s.requests ++ r ∧ w.requests = u.requests ++ r

/-- What is asked next is asked by both. -/
theorem Alike.trans {s u s' u' t w : State} (h : Alike s u s' u') (h' : Alike s' u' t w) : Alike s u t w := by
  obtain ⟨r, ht, hw⟩ := h.requests
  obtain ⟨r', ht', hw'⟩ := h'.requests
  exact ⟨h'.src, h'.snk, h'.draws, r ++ r', by rw [ht', ht, List.append_assoc], by rw [hw', hw, List.append_assoc]⟩

/-- Two stages end in the same way, with the same value or the same condition, in states that look alike. -/
inductive StageAlike {α : Type} (s u : State) : Stage α → Stage α → Prop where
  | done {t w : State} (v : α) (h : Alike s u t w) : StageAlike s u (.done v t) (.done v w)
  | raised {t w : State} (c : Condition) (h : Alike s u t w) : StageAlike s u (.raised c t) (.raised c w)
  | waiting {t w : State} (h : Alike s u t w) : StageAlike s u (.waiting t) (.waiting w)

/-- A stage that only maps the value keeps two runs alike. -/
theorem StageAlike.map {α β : Type} {s u : State} {st st' : Stage α} (h : StageAlike s u st st') (f : α → β) :
    StageAlike s u (st.andThen fun v t => .done (f v) t) (st'.andThen fun v t => .done (f v) t) := by
  cases h with
  | done v h => exact .done (f v) h
  | raised c h => exact .raised c h
  | waiting h => exact .waiting h

/-- Stages that are alike from a later point are alike from an earlier one. -/
theorem StageAlike.trans {α : Type} {s u s' u' : State} {st st' : Stage α} (h : Alike s u s' u')
    (h' : StageAlike s' u' st st') : StageAlike s u st st' := by
  cases h' with
  | done v h' => exact .done v (h.trans h')
  | raised c h' => exact .raised c (h.trans h')
  | waiting h' => exact .waiting (h.trans h')

/-- What two runs of an instruction show the host is the same. -/
def SameAnswer (s u : State) (i j : Result) : Prop :=
  ∃ t w r, i = .next t ∧ j = .next w ∧ t.response = w.response ∧ t.src = w.src ∧ t.snk = w.snk
    ∧ t.requests = s.requests ++ r ∧ w.requests = u.requests ++ r

/-- Retiring the working values keeps two runs alike. -/
theorem Alike.retire {s u t w : State} (h : Alike s u t w) (op : StreamOp) : Alike s u (t.retire op) (w.retire op) := by
  cases op <;> exact ⟨h.src, h.snk, h.draws, h.requests⟩

/-- Operations whose stages are alike give the same answer. -/
theorem StageAlike.finish {s u : State} {st st' : Stage Word} (h : StageAlike s u st st') (op : StreamOp) :
    SameAnswer s u (Machine.finish op st) (Machine.finish op st') := by
  cases h with
  | done v h =>
    obtain ⟨hsrc, hsnk, -, r, ht, hw⟩ := h.retire op
    exact ⟨_, _, r, rfl, rfl, rfl, hsrc, hsnk, ht, hw⟩
  | raised c h =>
    obtain ⟨hsrc, hsnk, -, r, ht, hw⟩ := h.retire op
    exact ⟨_, _, r, rfl, rfl, rfl, hsrc, hsnk, ht, hw⟩
  | waiting h =>
    obtain ⟨hsrc, hsnk, -, r, ht, hw⟩ := h
    exact ⟨_, _, r, rfl, rfl, rfl, hsrc, hsnk, ht, hw⟩

/-! ### Stages from states that look alike -/

section

variable {s u : State} (hsrc : s.src = u.src) (hsnk : s.snk = u.snk) (hdraws : s.draws = u.draws)

include hsrc hsnk hdraws

/-- Both runs write the same form, and the sink treats them alike. -/
theorem encodeForm_alike (v : Word) : StageAlike s u (encodeForm v s) (encodeForm v u) := by
  rw [encodeForm_eq, encodeForm_eq, loadForm_eq, loadForm_eq]
  simp only [memWrite, hsnk, hdraws]
  split
  · exact .done _ ⟨hsrc, rfl, rfl, _, rfl, rfl⟩
  · exact .raised _ ⟨hsrc, rfl, rfl, _, rfl, rfl⟩
  · exact .waiting ⟨hsrc, rfl, rfl, _, rfl, rfl⟩

/-- Both runs read after the same first byte, and the source treats them alike. -/
theorem afterFirstByte_alike {e : Nat} (he : e ≤ 8) (b : Byte) :
    StageAlike s u (afterFirstByte e b s) (afterFirstByte e b u) := by
  rcases Nat.eq_zero_or_pos e with rfl | h1
  · rw [afterFirstByte_zero, afterFirstByte_zero]
    exact .done _ ⟨hsrc, hsnk, hdraws, [], (List.append_nil _).symm, (List.append_nil _).symm⟩
  · rw [afterFirstByte_pos h1 he, afterFirstByte_pos h1 he]
    have hsrc' : (s.loadFirstByte e b).src = (u.loadFirstByte e b).src := hsrc
    have hlost : s.src.lose s.draws = u.src.lose u.draws := by rw [hsrc, hdraws]
    rcases (s.loadFirstByte e b).src.answer_cases e with h | ⟨c, h⟩ | h
    · rw [memRead_served h, memRead_served (hsrc' ▸ h), hsrc']
      exact .done _ ⟨rfl, hsnk, hdraws, _, rfl, rfl⟩
    · rw [memRead_fails h, memRead_fails (hsrc' ▸ h), Stage.andThen_raised, Stage.andThen_raised]
      exact .raised c ⟨hlost, hsnk, hdraws, _, rfl, rfl⟩
    · rw [memRead_unanswered h, memRead_unanswered (hsrc' ▸ h), Stage.andThen_waiting, Stage.andThen_waiting]
      exact .waiting ⟨hlost, hsnk, hdraws, _, rfl, rfl⟩

/-- Both runs read the same first byte and go on from it, or end at that read in the same way. -/
theorem decodeForm_alike : StageAlike s u (decodeForm s) (decodeForm u) := by
  have hlost : s.src.lose s.draws = u.src.lose u.draws := by rw [hsrc, hdraws]
  rcases s.src.answer_cases 1 with ⟨hplan, hlen⟩ | ⟨c, hf⟩ | hw
  · obtain ⟨b, t, hr⟩ := List.exists_cons_of_length_pos hlen
    have hfirst : Alike s u
        { s with requests := s.requests ++ [.read 1], src := ⟨t, s.src.ended, s.src.plan.tail⟩ }
        { u with requests := u.requests ++ [.read 1], src := ⟨t, u.src.ended, u.src.plan.tail⟩ } :=
      ⟨by rw [hsrc], hsnk, hdraws, [.read 1], rfl, rfl⟩
    rw [decodeForm_cons hr hplan, decodeForm_cons (hsrc ▸ hr) (hsrc ▸ hplan)]
    exact .trans hfirst (afterFirstByte_alike hfirst.src hfirst.snk hfirst.draws (clo8_le b) b)
  · rw [decodeForm, decodeForm, memRead_fails hf, memRead_fails (hsrc ▸ hf)]
    exact .raised c ⟨hlost, hsnk, hdraws, _, rfl, rfl⟩
  · rw [decodeForm, decodeForm, memRead_unanswered hw, memRead_unanswered (hsrc ▸ hw)]
    exact .waiting ⟨hlost, hsnk, hdraws, _, rfl, rfl⟩

/-! ### Instructions -/

/-- An instruction that uses the decoder's working values sets them before it uses them. -/
theorem exec_sameAnswer_of_usesDecoder {i : Instr} (hd : usesDecoder i = true) :
    SameAnswer s u (exec i s) (exec i u) := by
  rcases exec_of_usesDecoder hd with ⟨o, rfl | rfl⟩ | ⟨e, b, he, hrun⟩
  · exact (decodeForm_alike hsrc hsnk hdraws).finish .decode
  · exact ((decodeForm_alike hsrc hsnk hdraws).map zigzagDecode).finish .decodes
  · rw [hrun, hrun]
    exact (afterFirstByte_alike hsrc hsnk hdraws he b).finish .decode

end

/-- An instruction that only responds computes its response from its operand. -/
theorem exec_eq_respond_uniform {i : Instr} (hd : usesDecoder i = false) (hw : writesSink i = false) :
    ∃ r, ∀ s, exec i s = .next (s.respond r) := by
  cases i with
  | marker x =>
    by_cases hx : 8 < x.toNat
    · exact ⟨_, exec_marker_of_gt hx⟩
    · exact ⟨_, exec_marker_of_le (Nat.not_lt.mp hx)⟩
  | encode | encodes => cases hw
  | decode | decodes | wireL1 | wireL2 | wireL3 | wireL4 | wireL5 | wireL6 | wireL7 | wireL8 | wireL9 => cases hd
  | sizeof | sizeofs | zzenc | zzdec => exact ⟨_, fun _ => rfl⟩
  | reserved9 | reservedA | reservedB | reservedC | reservedD | reservedE | reservedF => exact ⟨_, fun _ => rfl⟩

/-- Settles O53, for the instructions of the decoder, of the encoder, and those that only respond. -/
theorem responsesDoNotDependOnStoredState : Obligations.ResponsesDoNotDependOnStoredState := by
  intro i s u hsrc hsnk hdraws
  change SameAnswer s u (exec i s) (exec i u)
  cases hd : usesDecoder i with
  | true => exact exec_sameAnswer_of_usesDecoder hsrc hsnk hdraws hd
  | false =>
    cases hw : writesSink i with
    | true =>
      cases i with
      | encode v => exact (encodeForm_alike hsrc hsnk hdraws v).finish .encode
      | encodes n => exact (encodeForm_alike hsrc hsnk hdraws (zigzagEncode n)).finish .encodes
      | _ => cases hw
    | false =>
      obtain ⟨r, hr⟩ := exec_eq_respond_uniform hd hw
      rw [hr, hr]
      exact ⟨_, _, [], rfl, rfl, rfl, hsrc, hsnk, (List.append_nil _).symm, (List.append_nil _).symm⟩

end Sys2Proof.Proofs
end

section
/-! SUPPORT. Several units (R31, R196, R215): a step changes its own unit and looks at no other, and a stream that is handed over
changes places with the other unit's. -/

namespace Sys2Proof.Proofs

open Sys2Proof Sys2Proof.Machine

/-! ### Steps of units -/

/-- A number that names no unit changes nothing. -/
theorem stepUnit_of_none {k : Nat} {us : Units} (h : us[k]? = none) : stepUnit k us = .next us := by
  rw [stepUnit, h]

/-- A step of a unit puts the unit's next state in its place. -/
theorem stepUnit_of_next {k : Nat} {us : Units} {s t : State} (h : us[k]? = some s) (ht : step s = .next t) :
    stepUnit k us = .next (us.set k t) := by
  rw [stepUnit, h]
  simp only [ht]

/-- Everything a step of a unit that does not stop can do. -/
theorem stepUnit_cases {k : Nat} {us vs : Units} (h : stepUnit k us = .next vs) :
    (us[k]? = none ∧ vs = us) ∨ ∃ s t, us[k]? = some s ∧ step s = .next t ∧ vs = us.set k t := by
  cases hk : us[k]? with
  | none =>
    cases (stepUnit_of_none hk).symm.trans h
    exact .inl ⟨rfl, rfl⟩
  | some s =>
    cases ht : step s with
    | next t =>
      cases (stepUnit_of_next hk ht).symm.trans h
      exact .inr ⟨s, t, rfl, ht, rfl⟩
    | fault r => rw [stepUnit, hk] at h; simp [ht] at h
    | refused r => rw [stepUnit, hk] at h; simp [ht] at h

/-- A step of a unit leaves the others as they are. -/
theorem stepUnit_getElem?_ne {j k : Nat} {us vs : Units} (h : stepUnit k us = .next vs) (hne : j ≠ k) :
    vs[j]? = us[j]? := by
  rcases stepUnit_cases h with ⟨-, rfl⟩ | ⟨s, t, -, -, rfl⟩
  · rfl
  · exact List.getElem?_set_ne hne.symm

/-- The steps of two units may be taken in either order. -/
theorem stepUnit_comm {j k : Nat} {us vs ws : Units} (hne : j ≠ k) (hj : stepUnit j us = .next vs)
    (hk : stepUnit k vs = .next ws) : ∃ vs', stepUnit k us = .next vs' ∧ stepUnit j vs' = .next ws := by
  have hkeep := stepUnit_getElem?_ne hj hne.symm
  rcases stepUnit_cases hk with ⟨hnone, rfl⟩ | ⟨s, t, hs, ht, rfl⟩
  · exact ⟨us, stepUnit_of_none (hkeep.symm.trans hnone), hj⟩
  · refine ⟨us.set k t, stepUnit_of_next (hkeep.symm.trans hs) ht, ?_⟩
    have hkeep' : (us.set k t)[j]? = us[j]? := List.getElem?_set_ne hne.symm
    rcases stepUnit_cases hj with ⟨hnone, rfl⟩ | ⟨s', t', hs', ht', rfl⟩
    · exact stepUnit_of_none (hkeep'.trans hnone)
    · rw [stepUnit_of_next (hkeep'.trans hs') ht', List.set_comm _ _ hne]

/-- Settles O56, by the two lemmas above. -/
theorem unitsShareNothing : Obligations.UnitsShareNothing :=
  ⟨fun _ _ _ h _ => stepUnit_getElem?_ne h, fun _ _ _ _ _ => stepUnit_comm⟩

/-! ### Handing a stream over -/

/-- Two units exchange something between operations: `give a b` is what becomes of unit `a` when `b` is the other. -/
def exchange (give : State → State → State) (i j : Nat) (us : Units) : Units :=
  match us[i]?, us[j]? with
  | some a, some b => if a.inProgress = none ∧ b.inProgress = none then (us.set i (give a b)).set j (give b a) else us
  | _, _ => us

/-- A source handed over is an exchange of sources. -/
theorem handSource_eq_exchange (i j : Nat) (us : Units) :
    handSource i j us = exchange (fun a b => a.setSource b.src) i j us := rfl

/-- A sink handed over is an exchange of sinks. -/
theorem handSink_eq_exchange (i j : Nat) (us : Units) :
    handSink i j us = exchange (fun a b => a.setSink b.snk) i j us := rfl

section

variable {give : State → State → State} {i j : Nat} {us : Units} {a b : State}

/-- Two idle units exchange. -/
theorem exchange_of_idle (hi : us[i]? = some a) (hj : us[j]? = some b) (ha : a.idle) (hb : b.idle) :
    exchange give i j us = (us.set i (give a b)).set j (give b a) := by
  rw [exchange, hi, hj]
  exact if_pos ⟨ha, hb⟩

/-- Nothing happens while one of the two has an operation in progress (R215). -/
theorem exchange_of_not_idle (hi : us[i]? = some a) (hj : us[j]? = some b) (h : ¬ (a.idle ∧ b.idle)) :
    exchange give i j us = us := by
  rw [exchange, hi, hj]
  exact if_neg h

/-- Everything an exchange can do. -/
theorem exchange_cases (give : State → State → State) (i j : Nat) (us : Units) : exchange give i j us = us
    ∨ ∃ a b, us[i]? = some a ∧ us[j]? = some b ∧ exchange give i j us = (us.set i (give a b)).set j (give b a) := by
  unfold exchange
  split
  next a b hi hj =>
    split
    · exact .inr ⟨a, b, hi, hj, rfl⟩
    · exact .inl rfl
  next => exact .inl rfl

/-- Two idle units have each become what the exchange makes of them, also when the two are one. -/
theorem exchange_getElem? (hi : us[i]? = some a) (hj : us[j]? = some b) (ha : a.idle) (hb : b.idle) :
    (exchange give i j us)[i]? = some (give a b) ∧ (exchange give i j us)[j]? = some (give b a) := by
  obtain ⟨hilt, -⟩ := List.getElem?_eq_some_iff.mp hi
  obtain ⟨hjlt, -⟩ := List.getElem?_eq_some_iff.mp hj
  rw [exchange_of_idle hi hj ha hb]
  refine ⟨?_, List.getElem?_set_self (by rwa [List.length_set])⟩
  by_cases hij : i = j
  · subst hij
    cases hi.symm.trans hj
    exact List.getElem?_set_self (by rwa [List.length_set])
  · rw [List.getElem?_set_ne (Ne.symm hij), List.getElem?_set_self hilt]

/-- An exchange leaves the other units as they are. -/
theorem exchange_getElem?_ne (give : State → State → State) (us : Units) {k : Nat} (hi : k ≠ i) (hj : k ≠ j) :
    (exchange give i j us)[k]? = us[k]? := by
  rcases exchange_cases give i j us with h | ⟨a, b, -, -, h⟩ <;> rw [h]
  rw [List.getElem?_set_ne hj.symm, List.getElem?_set_ne hi.symm]

/-- What the units hold is what they held, each as often, when the exchange gives each what the other held. -/
theorem exchange_map_perm {α : Type} {held : State → α} (hgive : ∀ a b, held (give a b) = held b) (i j : Nat)
    (us : Units) : ((exchange give i j us).map held).Perm (us.map held) := by
  rcases exchange_cases give i j us with h | ⟨a, b, hi, hj, h⟩ <;> rw [h]
  obtain ⟨hilt, rfl⟩ := List.getElem?_eq_some_iff.mp hi
  obtain ⟨hjlt, rfl⟩ := List.getElem?_eq_some_iff.mp hj
  have hswap := List.set_set_perm (as := us.map held) (i := i) (j := j) (by rwa [List.length_map])
    (by rwa [List.length_map])
  rw [List.map_set, List.map_set, hgive, hgive]
  simpa using hswap

end

/-- Settles O57, for sources and for sinks. -/
theorem handingOverExchangesTheStream : Obligations.HandingOverExchangesTheStream := by
  simp only [Obligations.HandingOverExchangesTheStream, handSource_eq_exchange, handSink_eq_exchange]
  refine ⟨fun i j us a b hi hj ha hb => ?_, fun i j us a b hi hj h => ?_, fun i j k us hi hj => ?_, fun i j us => ?_⟩
  · obtain ⟨hsrci, hsrcj⟩ := exchange_getElem? (give := fun a b => a.setSource b.src) hi hj ha hb
    obtain ⟨hsnki, hsnkj⟩ := exchange_getElem? (give := fun a b => a.setSink b.snk) hi hj ha hb
    exact ⟨hsrci, hsrcj, hsnki, hsnkj⟩
  · exact ⟨exchange_of_not_idle hi hj h, exchange_of_not_idle hi hj h⟩
  · exact ⟨exchange_getElem?_ne _ us hi hj, exchange_getElem?_ne _ us hi hj⟩
  · exact ⟨exchange_map_perm (give := fun a b => a.setSource b.src) (fun _ _ => rfl) i j us,
      exchange_map_perm (give := fun a b => a.setSink b.snk) (fun _ _ => rfl) i j us⟩

end Sys2Proof.Proofs
end
